-- ==== Sys2Proof/Word.lean ====
section
/-! DEFINITION. The two word types of the block: a byte of the ring (spec 20_memory.md R82) and a 32-bit
command or return word (spec 30_encoding.md R110, R123). -/

namespace Sys2Proof

/-- One ring byte, one 8-bit register, one 8-bit operand. -/
abbrev Byte := BitVec 8

/-- One command word or one return value. -/
abbrev Word := BitVec 32

end Sys2Proof
end

