-- ==== Sys2Proof/Config.lean ====
section
/-! DEFINITION. What the block's implementation or its environment fixes: the two agents (00_scope.md R8), the
form of a storage answer (10_state.md R66), the open parameters (00_scope.md R10), and the free values that
stand for the draws of 00_scope.md R15. The `opaque` constants have no body: nothing can be proved of their
values. -/

namespace Sys2Proof

/-- The two agents that step the block (00_scope.md R8). -/
inductive Agent where
  | host
  | timer
deriving DecidableEq, Repr, Inhabited

/-- An answer of the STORAGE oracle to one chunk request (10_state.md R66), well-formed or not: `ok n b` is a
count with the bytes delivered, `err code` an error code. -/
inductive StorageAnswer where
  | ok (n : Nat) (bytes : List Byte)
  | err (code : Byte)
deriving DecidableEq, Repr, Inhabited

/-- The overflow rule of the positive streak, parameter STREAK_OVF (00_scope.md R10). -/
inductive StreakOvf where
  | wrap
  | saturate
deriving DecidableEq, Repr, Inhabited

/-- The overflow rule of the normalized difference, parameter NORM_OVF (00_scope.md R10). -/
inductive NormOvf where
  | saturate
  | truncate
deriving DecidableEq, Repr, Inhabited

/-- The parameters that the source leaves open and "a model takes each as an argument" (00_scope.md R10). The
rates and durations of that table are not modelled, as it says. -/
structure Params where
  sensorMax : Nat
  calMax    : Nat
  midscale  : Byte
  streakOvf : StreakOvf
  normOvf   : NormOvf
deriving DecidableEq, Repr

/-- The constraints of 00_scope.md R10 on the parameters. -/
abbrev Params.wf (p : Params) : Prop :=
  1 ≤ p.sensorMax ∧ p.sensorMax ≤ 4095 ∧ 1 ≤ p.calMax ∧ p.calMax + 5 ≤ 65535

/-- SENSOR_MAX less one: any of the 4095 values R10 allows (92_eei_decisions.md D23, OPEN). -/
opaque Config.sensorMaxPred : Fin 4095

/-- CAL_MAX less one: any of the 65530 values R10 allows (92_eei_decisions.md D24, OPEN). -/
opaque Config.calMaxPred : Fin 65530

/-- MIDSCALE (92_eei_decisions.md D14, OPEN). -/
opaque Config.midscale : Byte

/-- STREAK_OVF (92_eei_decisions.md D16, OPEN). -/
opaque Config.streakOvf : StreakOvf

/-- NORM_OVF (92_eei_decisions.md D21, OPEN). -/
opaque Config.normOvf : NormOvf

/-- The parameters of the block at hand: any that meet R10. Log 1. -/
def Config.params : Params where
  sensorMax := Config.sensorMaxPred.val + 1
  calMax := Config.calMaxPred.val + 1
  midscale := Config.midscale
  streakOvf := Config.streakOvf
  normOvf := Config.normOvf

/-- The n-th free ADC reading, before it is brought into `0 .. SENSOR_MAX` (10_state.md R67). Log 6. -/
opaque Config.freeSample : Nat → Nat

/-- The n-th free bit: `draw {0,1}` for the indicator (10_state.md R49). Log 6. -/
opaque Config.freeBit : Nat → Bool

/-- The n-th free storage answer, of any form (10_state.md R66). Log 6. -/
opaque Config.freeStorage : Nat → StorageAnswer

/-- The n-th free choice of agent: "the environment chooses one ready agent" (60_exceptions.md R264). Log 7. -/
opaque Config.freeAgent : Nat → Agent

end Sys2Proof
end

