-- ==== Sys2Proof/Syntax.lean ====
section
/-! DEFINITION. The operations of the block, one constructor per row of spec/opcode_table.json
(30_encoding.md R116). The operand widths are those of R112 and R114, carried by the types, so that every term
has an encoding. -/

namespace Sys2Proof

/-- The closed set of operations (00_scope.md R2, 30_encoding.md R116). -/
inductive Instr where
  /-- PLAY_START startBlock, byteSize (41_audio_stream.md R143). -/
  | playStart (startBlock byteSize : Word)
  /-- RB_POLL (R144). -/
  | rbPoll
  /-- RB_WRITE (R145). -/
  | rbWrite
  /-- RB_COMMIT (R146). -/
  | rbCommit
  /-- RB_DRAIN (R147). -/
  | rbDrain
  /-- AUDIO_TICK (R148). -/
  | audioTick
  /-- DET_MEASURE (42_detector.md R182). -/
  | detMeasure
  /-- DET_GET_AVG (R183). -/
  | detGetAvg
  /-- DET_START (R184). -/
  | detStart
  /-- DET_STOP (R185). -/
  | detStop
  /-- DET_TICK (R186). -/
  | detTick
  /-- DET_IS_ALARM (R187). -/
  | detIsAlarm
  /-- DET_CALIBRATE (R188). -/
  | detCalibrate
  /-- TMR_ARM_BLINK (43_control.md R230). -/
  | tmrArmBlink
  /-- TMR_DISARM (R231). -/
  | tmrDisarm
  /-- READ_REG regno (R232). -/
  | readReg (regno : Byte)
  /-- READ_MEM addr (R233). -/
  | readMem (addr : Byte)
deriving DecidableEq, Repr

end Sys2Proof
end

