-- ==== Sys2Proof/WellFormed.lean ====
section
/-! DEFINITION. What a well-formed command is, as words, written from 30_encoding.md R110 to R118 and
independently of the decoder. A term of `Instr` needs no check of its own: its operand types carry the widths
of R112 and R114. The four checks below are on the words of ONE command; each has an ill-formed example in
Sys2Proof/Tests/Slice0.lean. -/

namespace Sys2Proof

/-- The operation codes of 30_encoding.md R116. -/
def Command.codes : List Byte :=
  [0x01, 0x02, 0x03, 0x04, 0x05, 0x10, 0x20, 0x21, 0x22, 0x23, 0x24, 0x25, 0x26, 0x30, 0x31, 0x40, 0x41]

/-- R117: the header's OPC is one of R116. -/
def Command.opcodeOk (w : Word) : Bool := Command.codes.contains (w.extractLsb' 24 8)

/-- R118: the RSV field is zero. -/
def Command.reservedOk (w : Word) : Bool := w.extractLsb' 8 16 == 0

/-- R111, R118: the A8 field is zero, but for READ_REG (0x40) and READ_MEM (0x41). -/
def Command.operandOk (w : Word) : Bool :=
  w.extractLsb' 24 8 == 0x40 || w.extractLsb' 24 8 == 0x41 || w.extractLsb' 0 8 == 0

/-- R110, R113: three words for OPC 0x01, one for every other. -/
def Command.lengthOk (w : Word) (operands : List Word) : Bool :=
  operands.length == if w.extractLsb' 24 8 = 0x01 then 2 else 0

/-- A well-formed command: all four checks (30_encoding.md R110 to R118). -/
def Command.wf : List Word → Bool
  | [] => false
  | w :: operands =>
    Command.opcodeOk w && Command.reservedOk w && Command.operandOk w && Command.lengthOk w operands

end Sys2Proof
end

