-- ==== Sys2Proof/Decode.lean ====
section
/-! DEFINITION. The decoder and the encoder of 30_encoding.md: total on any list of words, rejecting by name,
in the check order of R120. Words are whole 32-bit values (R86 of 20_memory.md); no byte order applies. -/

namespace Sys2Proof

/-- Why a command word list is not performed. The first three are the decode faults of R120; `incomplete` says
that the command's words are not all there yet (log 18). -/
inductive DecodeFault where
  | illegalOpcode
  | reservedNonzero
  | wrongAgent
  | incomplete
deriving DecidableEq, Repr

/-- OPC, bits [31:24] of the header (R111). -/
def opcOf (w : Word) : Byte := BitVec.ofNat 8 (w.toNat / 0x1000000)

/-- RSV, bits [23:8] of the header (R111). -/
def rsvOf (w : Word) : BitVec 16 := BitVec.ofNat 16 (w.toNat / 0x100)

/-- A8, bits [7:0] of the header (R111). -/
def a8Of (w : Word) : Byte := BitVec.ofNat 8 w.toNat

/-- R113: a command of OPC 0x01 is three words long, any other one. -/
def commandWords (w : Word) : Nat := if opcOf w = 0x01 then 3 else 1

/-- The words at a port hold at least one whole command (R113). -/
def commandPresent : List Word → Bool
  | [] => false
  | w :: rest => commandWords w ≤ rest.length + 1

/-- The operation codes of R116: PLAY_START, the other producer operations, AUDIO_TICK, the detector, the timer
purpose, the diagnostic reads. -/
def legalCodes : List Byte :=
  [0x01, 0x02, 0x03, 0x04, 0x05, 0x10, 0x20, 0x21, 0x22, 0x23, 0x24, 0x25, 0x26, 0x30, 0x31, 0x40, 0x41]

/-- Every code not in R116 is illegal (R117). -/
def legalOpcode (opc : Byte) : Bool := legalCodes.contains opc

/-- The operations with an 8-bit operand, READ_REG and READ_MEM (R111). -/
def takesA8 (opc : Byte) : Bool := opc == 0x40 || opc == 0x41

/-- Who may issue an operation code (R116 column "issued by", R119): the TIMER the two ticks, the HOST the
others. -/
def agentOfOpcode (opc : Byte) : Agent := if opc = 0x10 ∨ opc = 0x24 then .timer else .host

/-- The header checks of R120 before the agent check, in its order. -/
def headerFault (w : Word) : Option DecodeFault :=
  if ¬ legalOpcode (opcOf w) then some .illegalOpcode
  else if rsvOf w ≠ 0 then some .reservedNonzero
  else if ¬ takesA8 (opcOf w) ∧ a8Of w ≠ 0 then some .reservedNonzero
  else none

/-- The rows of R116 for the one-word commands, `a8` being the 8-bit operand where there is one (R114). -/
def oneWordTable (a8 : Byte) : List (Byte × Instr) :=
  [ (0x02, .rbPoll),
    (0x03, .rbWrite),
    (0x04, .rbCommit),
    (0x05, .rbDrain),
    (0x10, .audioTick),
    (0x20, .detMeasure),
    (0x21, .detGetAvg),
    (0x22, .detStart),
    (0x23, .detStop),
    (0x24, .detTick),
    (0x25, .detIsAlarm),
    (0x26, .detCalibrate),
    (0x30, .tmrArmBlink),
    (0x31, .tmrDisarm),
    (0x40, .readReg a8),
    (0x41, .readMem a8) ]

/-- The one-word command of a code; `none` for PLAY_START and for illegal codes. -/
def oneWordInstr (opc a8 : Byte) : Option Instr := (oneWordTable a8).lookup opc

/-- Operand assembly of R114 for a header that passed its checks, with the words that follow the command. -/
def assemble (w : Word) (rest : List Word) : Except DecodeFault (Instr × List Word) :=
  if opcOf w = 0x01 then
    match rest with
    | startBlock :: byteSize :: rest => .ok (.playStart startBlock byteSize, rest)
    | _ => .error .incomplete
  else
    match oneWordInstr (opcOf w) (a8Of w) with
    | some i => .ok (i, rest)
    | none => .error .illegalOpcode

/-- The command at the head of a word list, whoever presents it, and the words after it (R113, R120). -/
def decode : List Word → Except DecodeFault (Instr × List Word)
  | [] => .error .incomplete
  | w :: rest =>
    match headerFault w with
    | some f => .error f
    | none => assemble w rest

/-- `decode(ag, w0, w1, w2)` of R120: the header checks, then the agent check, then the operands. -/
def decodeFor (ag : Agent) : List Word → Except DecodeFault (Instr × List Word)
  | [] => .error .incomplete
  | w :: rest =>
    match headerFault w with
    | some f => .error f
    | none => if agentOfOpcode (opcOf w) = ag then assemble w rest else .error .wrongAgent

/-- The operation code of an instruction (R116). -/
def Instr.opcode : Instr → Byte
  | .playStart _ _ => 0x01
  | .rbPoll => 0x02
  | .rbWrite => 0x03
  | .rbCommit => 0x04
  | .rbDrain => 0x05
  | .audioTick => 0x10
  | .detMeasure => 0x20
  | .detGetAvg => 0x21
  | .detStart => 0x22
  | .detStop => 0x23
  | .detTick => 0x24
  | .detIsAlarm => 0x25
  | .detCalibrate => 0x26
  | .tmrArmBlink => 0x30
  | .tmrDisarm => 0x31
  | .readReg _ => 0x40
  | .readMem _ => 0x41

/-- The agent that issues an instruction (R116, R119). -/
def Instr.agent (i : Instr) : Agent := agentOfOpcode i.opcode

/-- A header word from its fields, RSV zero (R111). -/
def headerWord (opc a8 : Byte) : Word := BitVec.ofNat 32 (0x1000000 * opc.toNat + a8.toNat)

/-- The words of an instruction (R111, R112, R116). -/
def encode : Instr → List Word
  | .playStart startBlock byteSize => [headerWord 0x01 0, startBlock, byteSize]
  | .rbPoll => [headerWord 0x02 0]
  | .rbWrite => [headerWord 0x03 0]
  | .rbCommit => [headerWord 0x04 0]
  | .rbDrain => [headerWord 0x05 0]
  | .audioTick => [headerWord 0x10 0]
  | .detMeasure => [headerWord 0x20 0]
  | .detGetAvg => [headerWord 0x21 0]
  | .detStart => [headerWord 0x22 0]
  | .detStop => [headerWord 0x23 0]
  | .detTick => [headerWord 0x24 0]
  | .detIsAlarm => [headerWord 0x25 0]
  | .detCalibrate => [headerWord 0x26 0]
  | .tmrArmBlink => [headerWord 0x30 0]
  | .tmrDisarm => [headerWord 0x31 0]
  | .readReg regno => [headerWord 0x40 regno]
  | .readMem addr => [headerWord 0x41 addr]

/-- The words of ONE instruction whose bits are `w`, numbered from bit 0 of its first word, the bits from
`nbits` up being zero: as many words as R113 says the header asks for. -/
def wordsOfNumber (nbits w : Nat) : List Word :=
  let v := w % 2 ^ nbits
  let header := BitVec.ofNat 32 v
  if commandWords header = 3 then
    [header, BitVec.ofNat 32 (v / 2 ^ 32), BitVec.ofNat 32 (v / 2 ^ 64)]
  else [header]

/-- The instruction the decoder reads from an instruction's bits as the opcode table numbers them. -/
def decodeTableWord (nbits w : Nat) : Option Instr :=
  match decode (wordsOfNumber nbits w) with
  | .ok (i, _) => some i
  | .error _ => none

end Sys2Proof
end

