-- ==== Sys2Proof/Machine/Constants.lean ====
section
/-! DEFINITION. The constants of 00_scope.md R9, each named once (92_eei_decisions.md D45). -/

namespace Sys2Proof.Machine

/-- RB_CHUNK: bytes requested from storage per refill. -/
abbrev rbChunk : Nat := 32

/-- RB_LOW_WATER: a refill is due at or below this level, `256 - 2*32`. -/
abbrev rbLowWater : Nat := 192

/-- DET_INTERVALS: measurement intervals of one `measure()`. -/
abbrev detIntervals : Nat := 8

/-- DET_OVS: raw ADC reads of one oversampled reading. -/
abbrev detOvs : Nat := 16

/-- DET_SCALE: fixed-point scale of the normalized difference. -/
abbrev detScale : Nat := 1000

/-- CAL_TRIALS: trial measurements per threshold. -/
abbrev calTrials : Nat := 32

/-- CAL_STEP: threshold increment of the search, and its safety margin. -/
abbrev calStep : Nat := 5

/-- DET_TRIGGER: the alarm holds above this positive streak. -/
abbrev detTrigger : Nat := 4

/-- DET_NEG_RESET: consecutive misses that reset both streaks. -/
abbrev detNegReset : Nat := 2

end Sys2Proof.Machine
end

