-- ==== Sys2Proof/Machine/State.lean ====
section
/-! DEFINITION. The state of the block (10_state.md R30 to R69) as plain data, the reasons a step can stop, and
the state right after power-on (70_reset_and_hazards.md R300). -/

namespace Sys2Proof.Machine

/-- The producer phase PPHASE (10_state.md R40). -/
inductive Phase where
  | idle
  | refill
  | fetch
  | commit
  | drain
deriving DecidableEq, Repr

/-- The result of the last session, RB_STATUS (10_state.md R41). -/
inductive SessionStatus where
  | none
  | active
  | done
  | aborted
deriving DecidableEq, Repr

/-- The periodic-interrupt purpose PMODE (10_state.md R52). -/
inductive Purpose where
  | off
  | blink
  | detect
  | audio
deriving DecidableEq, Repr

/-- The ten block faults of 60_exceptions.md R252, in the order of their codes. -/
inductive BlockFault where
  | illegalOpcode
  | reservedNonzero
  | wrongAgent
  | sessionActive
  | wrongPhase
  | pmodeBusy
  | badRegno
  | badResponse
  | unwritten
  | overrun
deriving DecidableEq, Repr

/-- The fault record FAULT when it is not `none` (10_state.md R53): which fault, the OPC of the command, and
the agent that presented it. -/
structure FaultRecord where
  code   : BlockFault
  opcode : Byte
  agent  : Agent
deriving DecidableEq, Repr

/-- The events of the history (10_state.md R69). -/
inductive Event where
  | sample (v : Byte)
  | audioEnable (on : Bool)
  | timerArm (purpose : Purpose)
  | storageStartMulti (block : Word)
  | storageRead (n : Nat) (addr : Byte)
  | storageStop
  | adcRead (v : Nat)
  | emit (on : Bool)
  | ind (on : Bool)
  | fault (code : BlockFault)
deriving DecidableEq, Repr

/-- A register with its written-attribute (10_state.md R32). `val` means something only while `written` is
true: reading the register otherwise raises UNWRITTEN. -/
structure Reg (α : Type) where
  val     : α
  written : Bool
deriving DecidableEq, Repr

/-- The ring memory RB as the bytes that have been written, by address, addresses strictly rising
(20_memory.md R80, 10_state.md R33). An unlisted address is unwritten: it has no value. Log 5. -/
abbrev Memory := List Host.Cell

/-- The state of the block and of its ports. The registers are those of 10_state.md section 1, in its order;
from `params` on stand the model's own fields (INVENTORY.md, State). -/
structure State where
  ring        : Memory
  widx        : Reg Byte
  ridx        : Reg Byte
  scnt        : Reg Word
  target      : Reg Word
  bread       : Reg Word
  pend        : BitVec 6
  pphase      : Phase
  rbStatus    : SessionStatus
  rbErr       : Byte
  aout        : Reg Byte
  aoutEn      : Bool
  thresh      : BitVec 16
  /-- THRESH_VALID, which is the written-attribute of THRESH (R46). Log 4. -/
  threshValid : Bool
  pos         : Reg Byte
  neg         : Reg Byte
  ind         : Reg Bool
  emit        : Bool
  detErr      : Byte
  pmode       : Purpose
  fault       : Option FaultRecord
  /-- The event history, the newest event first. Log 16. -/
  events      : List Event
  /-- The parameters of 00_scope.md R10; no step changes them. Log 1. -/
  params      : Params
  /-- What the last completed HOST operation returned (00_scope.md R15). Log 13. -/
  ret         : Option Word
  /-- Words on the HOST command port, not performed yet (10_state.md R64). Log 8. -/
  hostPort    : List Word
  /-- Words presented on the TIMER tick port from outside (30_encoding.md R120). Log 9. -/
  timerPort   : List Word
  /-- The environment's coming choices of agent (60_exceptions.md R264). Log 7. -/
  turns       : List Agent
  /-- The coming storage answers (10_state.md R66). Log 6. -/
  storage     : List StorageAnswer
  /-- The coming ADC readings, before they are brought into range (10_state.md R67). Log 6. -/
  adc         : List Nat
  /-- The coming values of `draw {0,1}` (10_state.md R49). Log 6. -/
  bits        : List Bool
  /-- How many opaque free values have been used. Log 6. -/
  draws       : Nat
deriving DecidableEq, Repr

/-- Why the model stops. -/
inductive Fault where
  /-- A block fault has been recorded and "no agent performs another operation" (60_exceptions.md R259).
  Raised by `exec` and by `step` in every state whose FAULT is not `none`. Safe: the spec ends the run here. -/
  | runEnded (record : FaultRecord)
deriving DecidableEq, Repr

/-- Why the model declines an instruction. -/
inductive Refusal where
  /-- The instruction has no meaning in the model. Raised only by a refused arm of `exec`; there is none.
  Safe: nothing is claimed of the instruction. -/
  | notModelled (mnemonic : String)
deriving DecidableEq, Repr

/-- A register that nothing has written yet (10_state.md R32); the bits beside the clear attribute are log 2. -/
def Reg.unwritten {α : Type} (filler : α) : Reg α := ⟨filler, false⟩

/-- Power-on (70_reset_and_hazards.md R300). The event history is empty, no command is at a port. -/
def State.reset : State where
  ring := []
  widx := Reg.unwritten 0
  ridx := Reg.unwritten 0
  scnt := Reg.unwritten 0
  target := Reg.unwritten 0
  bread := Reg.unwritten 0
  pend := 0
  pphase := .idle
  rbStatus := .none
  rbErr := 0
  aout := Reg.unwritten 0
  aoutEn := false
  thresh := 0
  threshValid := false
  pos := Reg.unwritten 0
  neg := Reg.unwritten 0
  ind := Reg.unwritten false
  emit := false
  detErr := 0
  pmode := .off
  fault := none
  events := []
  params := Config.params
  ret := none
  hostPort := []
  timerPort := []
  turns := []
  storage := []
  adc := []
  bits := []
  draws := 0

end Sys2Proof.Machine
end

