-- ==== Sys2Proof/Machine/Ops.lean ====
section
/-! DEFINITION. The named operations the meanings are written over: register access, the ring memory, the event
history, the oracles' draws, taking a fault (the block's one exception, which has no return: 60_exceptions.md
R256, R259), and the teardown of a session (41_audio_stream.md R142). -/

namespace Sys2Proof.Machine

/-! ### Registers -/

/-- Reading a register (00_scope.md R13): UNWRITTEN where its written-attribute is clear. -/
def Reg.read {α : Type} (r : Reg α) : Except BlockFault α :=
  if r.written then .ok r.val else .error .unwritten

/-- Writing a register sets its written-attribute (10_state.md R32). -/
def Reg.put {α : Type} (v : α) : Reg α := ⟨v, true⟩

/-! ### Ring memory -/

/-- The byte at an address, `none` where nothing has written it (00_scope.md R14). -/
def Memory.read : Memory → Nat → Option Byte
  | [], _ => none
  | (a, v) :: m, addr => if a = addr then some v else Memory.read m addr

/-- Writing one byte keeps the addresses rising (00_scope.md R14). -/
def Memory.write : Memory → Nat → Byte → Memory
  | [], addr, v => [(addr, v)]
  | (a, u) :: m, addr, v =>
    if addr < a then (addr, v) :: (a, u) :: m
    else if a = addr then (addr, v) :: m
    else (a, u) :: Memory.write m addr v

/-- Writing bytes from an address on, one at a time, wrapping at 256 (20_memory.md R81, R85). -/
def Memory.writeBytes : Memory → Byte → List Byte → Memory
  | m, _, [] => m
  | m, addr, v :: vs => Memory.writeBytes (m.write addr.toNat v) (addr + 1) vs

/-- The addresses of a memory lie in `lo ..< 256` and rise strictly. -/
def Memory.risingFrom : Nat → Memory → Bool
  | _, [] => true
  | lo, (a, _) :: m => decide (lo ≤ a) && decide (a < 256) && Memory.risingFrom (a + 1) m

/-- The canonical form: addresses below 256 (20_memory.md R80), strictly rising. An unlisted address reads as
no value, so no entry can equal it. Log 5. -/
def Memory.wf (m : Memory) : Bool := Memory.risingFrom 0 m

/-! ### Event history -/

/-- `emit E` of 00_scope.md R15: append an event to the history (10_state.md R69). -/
def State.log (s : State) (e : Event) : State := { s with events := e :: s.events }

/-- The history in the order the events happened (10_state.md R69). -/
def State.history (s : State) : List Event := s.events.reverse

/-! ### Oracles and draws -/

/-- Bring a number into the ADC's range `0 .. SENSOR_MAX` (10_state.md R67); a number in range stays. -/
def inSensorRange (p : Params) (n : Nat) : Nat := n % (p.sensorMax + 1)

/-- How many free values one draw uses: none while the environment has fixed an answer. Log 6. -/
def spent {α : Type} : List α → Nat
  | [] => 1
  | _ :: _ => 0

/-- The next raw ADC reading (10_state.md R67): the one the environment has fixed, else a free one. Log 6. -/
def State.reading (s : State) : Nat :=
  inSensorRange s.params (s.adc.headD (Config.freeSample s.draws))

/-- `AdcRead()` of 00_scope.md R16: the next reading, in `0 .. SENSOR_MAX`, recorded as an event. -/
def State.adcRead (s : State) : Nat × State :=
  (s.reading, { s with adc := s.adc.tail, draws := s.draws + spent s.adc }.log (.adcRead s.reading))

/-- The next value of `draw {0,1}` (00_scope.md R15). Log 6. -/
def State.bit (s : State) : Bool := s.bits.headD (Config.freeBit s.draws)

/-- `IND <- draw {0,1} ; emit Ind(IND)` (10_state.md R49). -/
def State.drawInd (s : State) : State :=
  { s with bits := s.bits.tail, draws := s.draws + spent s.bits, ind := Reg.put s.bit }.log (.ind s.bit)

/-- The next answer of the STORAGE oracle (10_state.md R66). Log 6. -/
def State.answer (s : State) : StorageAnswer := s.storage.headD (Config.freeStorage s.draws)

/-- The state once `StorageResp()` (00_scope.md R16) has consumed its answer. -/
def State.answered (s : State) : State :=
  { s with storage := s.storage.tail, draws := s.draws + spent s.storage }

/-! ### Taking a fault -/

/-- Recording a fault (60_exceptions.md R256): `FAULT <- (code, OPC, agent)`, the event `Fault(code)`, and
nothing returned to the HOST that issued the command. No other register, ring byte or output changes. There is
no handler, no vector and no return (R259). -/
def State.raise (s : State) (ag : Agent) (opc : Byte) (code : BlockFault) : State :=
  { s with
    fault := some ⟨code, opc, ag⟩
    ret := match ag with
      | .host => none
      | .timer => s.ret }.log (.fault code)

/-- A check of the "Agent and preconditions" of an operation: the fault `code` unless `p` holds, and then the
checks after it (60_exceptions.md R257). -/
def check {α : Type} (p : Prop) [Decidable p] (code : BlockFault) (next : Except BlockFault α) :
    Except BlockFault α :=
  if p then next else .error code

/-- Performing an operation of agent `ag` and code `opc`: nothing is performed once a fault is recorded (R259);
a failing check records its fault on `s` (R256); otherwise the operation's effect happens. -/
def operate (s : State) (ag : Agent) (opc : Byte) (effect : Except BlockFault State) :
    Host.Outcome State Fault Refusal :=
  match s.fault with
  | some r => .fault (.runEnded r)
  | none =>
    match effect with
    | .ok t => .next t
    | .error code => .next (s.raise ag opc code)

/-- The two checks most HOST operations share, in the order of 60_exceptions.md R253: SESSION_ACTIVE unless
`PPHASE = IDLE`, then PMODE_BUSY unless `free` holds. -/
def outsideSession {α : Type} (s : State) (free : Prop) [Decidable free] (next : Except BlockFault α) :
    Except BlockFault α :=
  check (s.pphase = .idle) .sessionActive (check free .pmodeBusy next)

/-! ### Teardown of a session -/

/-- `teardown(result)` of 41_audio_stream.md R142. -/
def State.teardown (s : State) (result : SessionStatus) : State :=
  { ({ s with pmode := .off }.log (.timerArm .off)) with aoutEn := false }.log (.audioEnable false)
    |> fun t => { t with pend := 0, pphase := .idle, rbStatus := result }

end Sys2Proof.Machine
end

