-- ==== Sys2Proof/Machine/Flags.lean ====
section
/-! DEFINITION. The derived flags of 10_state.md R54 to R57, functions of the registers that no operation
writes. Each has a value where the registers it is computed from are written. -/

namespace Sys2Proof.Machine

/-- Both indices are written, so that LEVEL, EMPTY and LOWWATER have a value (10_state.md R32). -/
def State.indicesWritten (s : State) : Bool := s.widx.written && s.ridx.written

/-- `LEVEL = (WIDX - RIDX) mod 256` (R54). -/
def State.level (s : State) : Byte := s.widx.val - s.ridx.val

/-- `EMPTY = (RIDX = WIDX)` (R55). -/
def State.empty (s : State) : Bool := s.ridx.val == s.widx.val

/-- `LOWWATER = (LEVEL <= RB_LOW_WATER)` (R56). -/
def State.lowWater (s : State) : Bool := s.level.toNat ≤ rbLowWater

/-- `ALARM = (POS > DET_TRIGGER)` (R57). -/
def State.alarm (s : State) : Bool := detTrigger < s.pos.val.toNat

end Sys2Proof.Machine
end

