-- ==== Sys2Proof/Machine/Operands.lean ====
section
/-! DEFINITION. What an operand names: a register number (10_state.md R58), a ring address (R80 of
20_memory.md), and the form of a storage answer (10_state.md R66). -/

namespace Sys2Proof.Machine

/-- The value of PPHASE (10_state.md R40). -/
def Phase.code : Phase → Word
  | .idle => 0
  | .refill => 1
  | .fetch => 2
  | .commit => 3
  | .drain => 4

/-- The value of RB_STATUS (10_state.md R41). -/
def SessionStatus.code : SessionStatus → Word
  | .none => 0
  | .active => 1
  | .done => 2
  | .aborted => 3

/-- The value of PMODE (10_state.md R52). -/
def Purpose.code : Purpose → Word
  | .off => 0
  | .blink => 1
  | .detect => 2
  | .audio => 3

/-- The code of a fault (60_exceptions.md R252). -/
def BlockFault.code : BlockFault → Byte
  | .illegalOpcode => 0x01
  | .reservedNonzero => 0x02
  | .wrongAgent => 0x03
  | .sessionActive => 0x04
  | .wrongPhase => 0x05
  | .pmodeBusy => 0x06
  | .badRegno => 0x07
  | .badResponse => 0x08
  | .unwritten => 0x09
  | .overrun => 0x0A

/-- A one-bit value as a returned word. -/
def bitWord (b : Bool) : Word := if b then 1 else 0

/-- A derived flag: UNWRITTEN unless every register it is computed from is written (10_state.md section 6). -/
def derived (written : Bool) (v : Word) : Except BlockFault Word :=
  if written then .ok v else .error .unwritten

/-- The rows of 10_state.md R58: each number with the value read, zero-extended to 32 bits, or UNWRITTEN. -/
def registerRows (s : State) : List (Byte × Except BlockFault Word) :=
  [ (0x00, s.widx.read.map (·.setWidth 32)),
    (0x01, s.ridx.read.map (·.setWidth 32)),
    (0x02, derived s.indicesWritten (s.level.setWidth 32)),
    (0x03, s.scnt.read),
    (0x04, s.target.read),
    (0x05, s.bread.read),
    (0x06, .ok (s.pend.setWidth 32)),
    (0x07, .ok s.pphase.code),
    (0x08, .ok s.rbStatus.code),
    (0x09, .ok (s.rbErr.setWidth 32)),
    (0x0A, s.aout.read.map (·.setWidth 32)),
    (0x0B, .ok (bitWord s.aoutEn)),
    (0x0C, .ok s.pmode.code),
    (0x0D, derived s.indicesWritten (bitWord s.empty)),
    (0x0E, derived s.indicesWritten (bitWord s.lowWater)),
    (0x10, derived s.threshValid (s.thresh.setWidth 32)),
    (0x11, .ok (bitWord s.threshValid)),
    (0x12, s.pos.read.map (·.setWidth 32)),
    (0x13, s.neg.read.map (·.setWidth 32)),
    (0x14, derived s.pos.written (bitWord s.alarm)),
    (0x15, s.ind.read.map bitWord),
    (0x16, .ok (bitWord s.emit)),
    (0x17, .ok (s.detErr.setWidth 32)) ]

/-- The register or derived flag of a number of 10_state.md R58: BAD_REGNO for a reserved number. -/
def registerValue (s : State) (regno : Byte) : Except BlockFault Word :=
  match (registerRows s).lookup regno with
  | some v => v
  | none => .error .badRegno

/-- `MemRead(addr, 1)` (00_scope.md R14). -/
def ringByte (s : State) (addr : Byte) : Except BlockFault Byte :=
  match s.ring.read addr.toNat with
  | some v => .ok v
  | none => .error .unwritten

/-- A well-formed storage answer (10_state.md R66): `Ok(n, b)` with `n <= 32` and exactly `n` bytes, or
`Err(code)` with `code` in 1..5. -/
def answerOk : StorageAnswer → Bool
  | .ok n bytes => decide (n ≤ rbChunk) && decide (bytes.length = n)
  | .err code => decide (1 ≤ code.toNat) && decide (code.toNat ≤ 5)

end Sys2Proof.Machine
end

