-- ==== Sys2Proof/Machine/Audio.lean ====
section
/-! DEFINITION. The audio stream operations (41_audio_stream.md R143 to R148). -/

namespace Sys2Proof.Machine

/-- The effect of PLAY_START (41_audio_stream.md R143). -/
def openSession (startBlock byteSize : Word) (s : State) : State :=
  { (({ s with aoutEn := true }.log (.audioEnable true)).log (.timerArm .audio)).log
      (.storageStartMulti startBlock) with
    ridx := Reg.put 0
    widx := Reg.put 0
    scnt := Reg.put 0
    target := Reg.put byteSize
    bread := Reg.put 0
    pend := 0
    pmode := .audio
    pphase := .refill
    rbStatus := .active
    ret := none }

/-- PLAY_START (41_audio_stream.md R143). -/
def execPlayStart (startBlock byteSize : Word) (s : State) : Host.Outcome State Fault Refusal :=
  operate s .host 0x01 <|
    outsideSession s (s.pmode = .off) <|
      .ok (openSession startBlock byteSize s)

/-- The effect of RB_POLL in phase REFILL (41_audio_stream.md R144): the loop test comes before the level
test, and a poll that requests nothing changes no state but the value returned (log 17). -/
def pollEffect (s : State) : State :=
  if s.target.val ≤ s.bread.val then
    { s.log .storageStop with pphase := .drain, ret := some (s.level.setWidth 32) }
  else if s.lowWater then
    { s.log (.storageRead rbChunk s.widx.val) with pphase := .fetch, ret := some (s.level.setWidth 32) }
  else { s with ret := some (s.level.setWidth 32) }

/-- RB_POLL (41_audio_stream.md R144). The reads of WIDX, RIDX, BREAD and TARGET follow R13 (log 14). -/
def execRbPoll (s : State) : Host.Outcome State Fault Refusal :=
  operate s .host 0x02 <|
    check (s.pphase = .refill) .wrongPhase <|
      check (s.indicesWritten ∧ s.bread.written ∧ s.target.written) .unwritten <|
        .ok (pollEffect s)

/-- The effect of RB_WRITE once its answer is in hand (41_audio_stream.md R145): an error tears the session
down without a drain, bytes go into the ring at WIDX and are not published. -/
def receive (s : State) : StorageAnswer → Except BlockFault State
  | .err code => .ok { { s with rbErr := code }.teardown .aborted with ret := none }
  | .ok n bytes =>
    check (n = 0 ∨ s.widx.written) .unwritten <|
      .ok
        { s with
          ring := s.ring.writeBytes s.widx.val bytes
          pend := BitVec.ofNat 6 n
          pphase := .commit
          ret := none }

/-- RB_WRITE (41_audio_stream.md R145). The answer is consumed before BAD_RESPONSE is raised
(60_exceptions.md R256), and is not asked for out of phase. -/
def execRbWrite (s : State) : Host.Outcome State Fault Refusal :=
  if s.pphase = .fetch then
    operate s.answered .host 0x03 <|
      check (answerOk s.answer) .badResponse (receive s.answered s.answer)
  else operate s .host 0x03 (.error .wrongPhase)

/-- The effect of RB_COMMIT (41_audio_stream.md R146): the pending bytes are published. -/
def publish (s : State) : State :=
  { s with
    widx := Reg.put (s.widx.val + s.pend.setWidth 8)
    bread := Reg.put (s.bread.val + s.pend.setWidth 32)
    pend := 0
    pphase := .refill
    ret := none }

/-- RB_COMMIT (41_audio_stream.md R146). -/
def execRbCommit (s : State) : Host.Outcome State Fault Refusal :=
  operate s .host 0x04 <|
    check (s.pphase = .commit) .wrongPhase <|
      check (s.indicesWritten ∧ s.bread.written) .unwritten <|
        check (s.level.toNat + s.pend.toNat ≤ 255) .overrun <|
          .ok (publish s)

/-- RB_DRAIN holds (41_audio_stream.md R147, 00_scope.md R15): it is not enabled while bytes are left. -/
def drainHolds (s : State) : Bool := decide (s.pphase = .drain) && s.indicesWritten && !s.empty

/-- The end of a session at the drain (41_audio_stream.md R147). -/
def endSession (s : State) : State := { s.teardown .done with ret := none }

/-- RB_DRAIN (41_audio_stream.md R147). A drain that holds changes nothing; the command stays at its port and
is retried (log 12). -/
def execRbDrain (s : State) : Host.Outcome State Fault Refusal :=
  operate s .host 0x05 <|
    check (s.pphase = .drain) .wrongPhase <|
      check s.indicesWritten .unwritten <|
        .ok (if drainHolds s then s else endSession s)

/-- The sample a non-empty tick emits (41_audio_stream.md R148): the byte at RIDX until TARGET samples have
been counted, then MIDSCALE without a ring read. -/
def nextSample (s : State) : Except BlockFault Byte :=
  if s.scnt.val < s.target.val then ringByte s s.ridx.val else .ok s.params.midscale

/-- Presenting a sample and advancing (41_audio_stream.md R148). -/
def playSample (s : State) (v : Byte) : State :=
  { s.log (.sample v) with
    aout := Reg.put v
    ridx := Reg.put (s.ridx.val + 1)
    scnt := Reg.put (s.scnt.val + 1) }

/-- AUDIO_TICK (41_audio_stream.md R148). An empty ring is an underrun, neither error nor fault
(60_exceptions.md R273). -/
def execAudioTick (s : State) : Host.Outcome State Fault Refusal :=
  operate s .timer 0x10 <|
    check (s.pmode = .audio) .wrongAgent <|
      check s.indicesWritten .unwritten <|
        if s.empty then .ok s
        else
          check (s.scnt.written ∧ s.target.written) .unwritten <|
            (nextSample s).map (playSample s)

end Sys2Proof.Machine
end

