-- ==== Sys2Proof/Machine/Detector.lean ====
section
/-! DEFINITION. The proximity detector (42_detector.md R181 to R188): the oversampled reading, the measurement,
and the operations over them. Settle delays and pauses are timing and are not modelled (R180). -/

namespace Sys2Proof.Machine

/-- The sum of `k` raw ADC reads (42_detector.md R181). -/
def adcSum : Nat → State → Nat × State
  | 0, s => (0, s)
  | k + 1, s => (s.adcRead.1 + (adcSum k s.adcRead.2).1, (adcSum k s.adcRead.2).2)

/-- `OVS()`: the floor of the 16-sample average (42_detector.md R181). -/
def ovs (s : State) : Nat × State := ((adcSum detOvs s).1 / detOvs, (adcSum detOvs s).2)

/-- `EMIT <- b ; emit Emit(b)` (10_state.md R50). -/
def State.drive (s : State) (on : Bool) : State := { s with emit := on }.log (.emit on)

/-- The absolute difference of two readings (00_scope.md R12). -/
def absDiff (a b : Nat) : Nat := (a - b) + (b - a)

/-- One measurement interval of 42_detector.md R182: what it adds to `bsum` and to `dsum`. -/
def interval (s : State) : (Nat × Nat) × State :=
  let r1 := ovs s
  let r2 := ovs (r1.2.drive true)
  let r3 := ovs (r2.2.drive false)
  ((r1.1, absDiff r2.1 r1.1 + absDiff r2.1 r3.1), r3.2)

/-- The sums over `k` intervals (42_detector.md R182). -/
def intervals : Nat → State → (Nat × Nat) × State
  | 0, s => ((0, 0), s)
  | k + 1, s =>
    let r := interval s
    let t := intervals k r.2
    ((r.1.1 + t.1.1, r.1.2 + t.1.2), t.2)

/-- The headroom of a baseline sum (42_detector.md R182), unclamped (92_eei_decisions.md D22). -/
def headroom (p : Params) (bsum : Nat) : Nat := p.sensorMax - bsum / detIntervals

/-- The normalized difference of the two sums (42_detector.md R182): averages by floor, multiplied before the
division, the divisor clamped to 1, and the overflow rule NORM_OVF. -/
def normalized (p : Params) (bsum dsum : Nat) : Nat :=
  let q := dsum / (2 * detIntervals) * detScale / max (headroom p bsum) 1
  match p.normOvf with
  | .saturate => min q 65535
  | .truncate => q % 65536

/-- `measure()` of 42_detector.md R182: `(nd, head)`. -/
def measure (s : State) : (Nat × Nat) × State :=
  let r := intervals detIntervals s
  ((normalized s.params r.1.1 r.1.2, headroom s.params r.1.1), r.2)

/-- DET_MEASURE (42_detector.md R182): returns `head` in the high half and `nd` in the low half. -/
def execDetMeasure (s : State) : Host.Outcome State Fault Refusal :=
  operate s .host 0x20 <|
    outsideSession s (s.pmode = .off ∨ s.pmode = .blink) <|
      .ok { (measure s).2 with
            ret := some (BitVec.ofNat 16 (measure s).1.2 ++ BitVec.ofNat 16 (measure s).1.1) }

/-- DET_GET_AVG (42_detector.md R183): one fresh `OVS()`, the emitter not driven. -/
def execDetGetAvg (s : State) : Host.Outcome State Fault Refusal :=
  operate s .host 0x21 <|
    outsideSession s (s.pmode = .off ∨ s.pmode = .blink) <|
      .ok { (ovs s).2 with ret := some (BitVec.ofNat 32 (ovs s).1) }

/-- The effect of DET_START (42_detector.md R184). -/
def startDetect (s : State) : State :=
  { { s with pos := Reg.put 0, neg := Reg.put 0 }.drawInd.log (.timerArm .detect) with
    pmode := .detect
    ret := none }

/-- DET_START (42_detector.md R184). -/
def execDetStart (s : State) : Host.Outcome State Fault Refusal :=
  operate s .host 0x22 <|
    outsideSession s (s.pmode = .off) <|
      .ok (startDetect s)

/-- Disarming a purpose: `PMODE <- OFF ; emit TimerArm(OFF)` (42_detector.md R185, 43_control.md R231). -/
def State.disarm (s : State) : State := { s with pmode := .off }.log (.timerArm .off)

/-- The effect of DET_STOP (42_detector.md R185). -/
def stopDetect (s : State) : State :=
  { (if s.pmode = .detect then s.disarm else s).drawInd with ret := none }

/-- DET_STOP (42_detector.md R185): the streaks are kept. -/
def execDetStop (s : State) : Host.Outcome State Fault Refusal :=
  operate s .host 0x23 <|
    outsideSession s (s.pmode = .detect ∨ s.pmode = .off) <|
      .ok (stopDetect s)

/-- The positive streak after one more positive tick (42_detector.md R186, parameter STREAK_OVF). -/
def streakUp (p : Params) (v : Byte) : Byte :=
  match p.streakOvf with
  | .wrap => v + 1
  | .saturate => if v = 255 then 255 else v + 1

/-- One debounce step on a measured `nd` (42_detector.md R186). -/
def debounce (s : State) (nd : Nat) : State :=
  if s.thresh.toNat ≤ nd then
    { s with pos := Reg.put (streakUp s.params s.pos.val), neg := Reg.put 0, ind := Reg.put true }.log
      (.ind true)
  else if (s.neg.val + 1).toNat = detNegReset then
    { s with pos := Reg.put 0, neg := Reg.put 0 }.drawInd
  else { s with neg := Reg.put (s.neg.val + 1) }.drawInd

/-- DET_TICK (42_detector.md R186). THRESH_VALID, and by R13 and R15 the streaks, are checked before the
measurement (log 14). -/
def execDetTick (s : State) : Host.Outcome State Fault Refusal :=
  operate s .timer 0x24 <|
    check (s.pmode = .detect) .wrongAgent <|
      check (s.threshValid ∧ s.pos.written ∧ s.neg.written) .unwritten <|
        .ok (debounce (measure s).2 (measure s).1.1)

/-- DET_IS_ALARM (42_detector.md R187). -/
def execDetIsAlarm (s : State) : Host.Outcome State Fault Refusal :=
  operate s .host 0x25 <|
    check (s.pphase = .idle) .sessionActive <|
      check s.pos.written .unwritten <|
        .ok { s with ret := some (bitWord s.alarm) }

/-- Up to `k` trials at threshold `t`, ended by the first hit: whether one hit (42_detector.md R188). -/
def trials (t : Nat) : Nat → State → Bool × State
  | 0, s => (false, s)
  | k + 1, s => if t ≤ (measure s).1.1 then (true, (measure s).2) else trials t k (measure s).2

/-- The end of a failed search (42_detector.md R188): THRESH and THRESH_VALID unchanged. -/
def calFailed (s : State) : State := { s with detErr := 6, ret := some 0 }

/-- The end of a search that converged at `t` before its safety margin (42_detector.md R188). -/
def calDone (t : Nat) (s : State) : State :=
  { s with thresh := BitVec.ofNat 16 (t + calStep), threshValid := true, ret := some 1 }

/-- The search loop from threshold `t` (42_detector.md R188). The first argument bounds the rounds: called with
at least `CAL_MAX - t` it is never spent before the bound is reached, since each round adds CAL_STEP. -/
def calLoop : Nat → Nat → State → State
  | 0, _, s => calFailed s
  | k + 1, t, s =>
    if s.params.calMax ≤ t then calFailed s
    else
      let r := trials t calTrials s
      if r.1 then calLoop k (t + calStep) r.2 else calDone t r.2

/-- The whole threshold search: one measurement for the start, then the loop (42_detector.md R188). -/
def calibrate (s : State) : State :=
  let r := measure s
  calLoop (s.params.calMax - r.1.1) r.1.1 r.2

/-- DET_CALIBRATE (42_detector.md R188). -/
def execDetCalibrate (s : State) : Host.Outcome State Fault Refusal :=
  operate s .host 0x26 <|
    outsideSession s (s.pmode = .off) <|
      .ok (calibrate s)

end Sys2Proof.Machine
end

