-- ==== Sys2Proof/Machine/Control.lean ====
section
/-! DEFINITION. The blink purpose of the shared timer and the diagnostic reads (43_control.md R230 to R233). -/

namespace Sys2Proof.Machine

/-- The effect of TMR_ARM_BLINK (43_control.md R230). -/
def armBlink (s : State) : State := { s.log (.timerArm .blink) with pmode := .blink, ret := none }

/-- TMR_ARM_BLINK (43_control.md R230). -/
def execTmrArmBlink (s : State) : Host.Outcome State Fault Refusal :=
  operate s .host 0x30 <|
    outsideSession s (s.pmode = .off) <|
      .ok (armBlink s)

/-- The effect of TMR_DISARM (43_control.md R231). -/
def disarmBlink (s : State) : State :=
  { (if s.pmode = .blink then s.disarm.drawInd else s) with ret := none }

/-- TMR_DISARM (43_control.md R231): with PMODE = OFF it does nothing. -/
def execTmrDisarm (s : State) : Host.Outcome State Fault Refusal :=
  operate s .host 0x31 <|
    outsideSession s (s.pmode = .blink ∨ s.pmode = .off) <|
      .ok (disarmBlink s)

/-- READ_REG (43_control.md R232): any phase, any purpose, no side effect. -/
def execReadReg (regno : Byte) (s : State) : Host.Outcome State Fault Refusal :=
  operate s .host 0x40 <|
    (registerValue s regno).map fun v => { s with ret := some v }

/-- READ_MEM (43_control.md R233): uncommitted bytes too, any phase, any purpose. -/
def execReadMem (addr : Byte) (s : State) : Host.Outcome State Fault Refusal :=
  operate s .host 0x41 <|
    (ringByte s addr).map fun v => { s with ret := some (v.setWidth 32) }

end Sys2Proof.Machine
end

