-- ==== Sys2Proof/Machine/Dispatch.lean ====
section
/-! DEFINITION. One arm per operation of spec/opcode_table.json, each one direct call of its meaning. -/

namespace Sys2Proof.Machine

def exec (i : Instr) (s : State) : Host.Outcome State Fault Refusal :=
  match i with
  | .playStart startBlock byteSize => Sys2Proof.Machine.execPlayStart startBlock byteSize s
  | .rbPoll => Sys2Proof.Machine.execRbPoll s
  | .rbWrite => Sys2Proof.Machine.execRbWrite s
  | .rbCommit => Sys2Proof.Machine.execRbCommit s
  | .rbDrain => Sys2Proof.Machine.execRbDrain s
  | .audioTick => Sys2Proof.Machine.execAudioTick s
  | .detMeasure => Sys2Proof.Machine.execDetMeasure s
  | .detGetAvg => Sys2Proof.Machine.execDetGetAvg s
  | .detStart => Sys2Proof.Machine.execDetStart s
  | .detStop => Sys2Proof.Machine.execDetStop s
  | .detTick => Sys2Proof.Machine.execDetTick s
  | .detIsAlarm => Sys2Proof.Machine.execDetIsAlarm s
  | .detCalibrate => Sys2Proof.Machine.execDetCalibrate s
  | .tmrArmBlink => Sys2Proof.Machine.execTmrArmBlink s
  | .tmrDisarm => Sys2Proof.Machine.execTmrDisarm s
  | .readReg regno => Sys2Proof.Machine.execReadReg regno s
  | .readMem addr => Sys2Proof.Machine.execReadMem addr s

end Sys2Proof.Machine
end

