-- ==== Sys2Proof/Machine/Ports.lean ====
section
/-! DEFINITION. How an agent comes to perform an operation: the command ports (10_state.md R63, R64), decoding
with the presenting agent (30_encoding.md R120), the TIMER's own tick (60_exceptions.md R260), the choice of the
agent that moves (R264), the end of a run (70_reset_and_hazards.md R322), and presenting a command from outside. -/

namespace Sys2Proof.Machine

/-- The block fault of a decode fault (30_encoding.md R120); `none` for words that are not all there. -/
def decodeBlockFault : DecodeFault → Option BlockFault
  | .illegalOpcode => some .illegalOpcode
  | .reservedNonzero => some .reservedNonzero
  | .wrongAgent => some .wrongAgent
  | .incomplete => none

/-- OPC of the command at the head of a port, for the fault record (60_exceptions.md R256). -/
def headOpcode : List Word → Byte
  | [] => 0
  | w :: _ => opcOf w

/-- A command presented by agent `ag` (30_encoding.md R120): a decode fault is recorded, a decoded operation is
performed, and words that are not a whole command wait (log 18). -/
def perform (ag : Agent) (words : List Word) (s : State) : Host.Outcome State Fault Refusal :=
  match decodeFor ag words with
  | .ok (i, _) => exec i s
  | .error f =>
    match decodeBlockFault f with
    | some code => .next (s.raise ag (headOpcode words) code)
    | none => .next s

/-- The words of the command at the head of a port are taken from it. -/
def dropCommand : List Word → List Word
  | [] => []
  | w :: rest => (w :: rest).drop (commandWords w)

/-- The command at the HOST port is an RB_DRAIN that holds, so that it stays there to be retried (10_state.md
R64). Log 12. -/
def hostHolds (s : State) : Bool :=
  match decodeFor .host s.hostPort with
  | .ok (i, _) => decide (i = .rbDrain) && drainHolds s
  | .error _ => false

/-- What follows a step of an agent: a completed command leaves its port. -/
def afterNext (o : Host.Outcome State Fault Refusal) (f : State → State) : Host.Outcome State Fault Refusal :=
  match o with
  | .next t => .next (f t)
  | .fault r => .fault r
  | .refused r => .refused r

/-- A turn of the HOST: the command at its port is performed, and leaves the port unless it holds. With no
whole command at the port the HOST issues nothing (60_exceptions.md R272). -/
def hostTurn (s : State) : Host.Outcome State Fault Refusal :=
  if commandPresent s.hostPort then
    afterNext (perform .host s.hostPort s) fun t =>
      if hostHolds s then t else { t with hostPort := dropCommand t.hostPort }
  else .next s

/-- The tick the TIMER issues of itself: that of the armed purpose (60_exceptions.md R260). -/
def ownTick : Purpose → List Word
  | .audio => encode .audioTick
  | .detect => encode .detTick
  | .off => []
  | .blink => []

/-- A turn of the TIMER: a word presented on its port from outside (log 9), else the tick of the armed
purpose, else, while BLINK, the indicator's draw (43_control.md R230, log 15), else nothing. A run that is over
gives no turn (`nextTurn`). -/
def timerTurn (s : State) : Host.Outcome State Fault Refusal :=
  if commandPresent s.timerPort then
    afterNext (perform .timer s.timerPort s) fun t => { t with timerPort := dropCommand t.timerPort }
  else
    match s.pmode with
    | .audio => perform .timer (ownTick .audio) s
    | .detect => perform .timer (ownTick .detect) s
    | .blink => .next s.drawInd
    | .off => .next s

/-- The HOST is ready when it has a command (60_exceptions.md R264). -/
def hostReady (s : State) : Bool := commandPresent s.hostPort

/-- The TIMER is ready when AUDIO or DETECT is armed (60_exceptions.md R264), or when a word is presented on
its port. -/
def timerReady (s : State) : Bool :=
  commandPresent s.timerPort || decide (s.pmode = .audio) || decide (s.pmode = .detect)

/-- The run is over without a fault (70_reset_and_hazards.md R322): the HOST has no further command, no session
runs and the purpose is OFF or BLINK, so that the block is quiescent. A word presented on the TIMER port from
outside (log 9) keeps a run going. -/
def State.runOver (s : State) : Bool :=
  !commandPresent s.hostPort && !commandPresent s.timerPort && decide (s.pphase = .idle) &&
    (decide (s.pmode = .off) || decide (s.pmode = .blink))

/-- The agent that moves next (60_exceptions.md R264): the environment's next choice where one is given; else
a free choice where the HOST is ready and the TIMER is too or the blink may draw; else the one ready agent.
Log 7. -/
def chooseAgent (s : State) : Agent × State :=
  match s.turns with
  | ag :: rest => (ag, { s with turns := rest })
  | [] =>
    if hostReady s then
      if timerReady s ∨ s.pmode = .blink then (Config.freeAgent s.draws, { s with draws := s.draws + 1 })
      else (.host, s)
    else if timerReady s then (.timer, s)
    else (.host, s)

/-- The turn of an agent. -/
def agentTurn : Agent → State → Host.Outcome State Fault Refusal
  | .host, s => hostTurn s
  | .timer, s => timerTurn s

/-- One step of the block: once a fault is recorded no agent steps (60_exceptions.md R259); a run that is over
stays in its last state (70_reset_and_hazards.md R322, log 10); otherwise the chosen agent has its turn. -/
def nextTurn (s : State) : Host.Outcome State Fault Refusal :=
  match s.fault with
  | some r => .fault (.runEnded r)
  | none => if s.runOver then .next s else agentTurn (chooseAgent s).1 (chooseAgent s).2

/-- The state in which agent `ag` presents a command next: its words at the head of the agent's port, and the
next turn the agent's. Log 8. -/
def State.present (s : State) (ag : Agent) (words : List Word) : State :=
  match ag with
  | .host => { s with hostPort := words ++ s.hostPort, turns := .host :: s.turns }
  | .timer => { s with timerPort := words ++ s.timerPort, turns := .timer :: s.turns }

/-- The words of one instruction of the opcode table, presented by the agent that issues it (R116). -/
def State.presentTableWord (s : State) (nbits w : Nat) : State :=
  s.present (agentOfOpcode (headOpcode (wordsOfNumber nbits w))) (wordsOfNumber nbits w)

end Sys2Proof.Machine
end

