-- ==== Sys2Proof/Machine/Step.lean ====
section
/-! DEFINITION. One step of the block, and where a command is placed so that the next step performs it. -/

namespace Sys2Proof.Machine

/-- One step of the block (00_scope.md R17, 60_exceptions.md R264): the turn of one agent. -/
def step (s : State) : Host.Outcome State Fault Refusal := nextTurn s

/-- `s` with one instruction, given as the opcode table numbers its bits, presented on the port of the agent
that issues it, that agent having the next turn. Log 8. -/
def State.withFetchWord (s : State) (nbits w : Nat) : State := s.presentTableWord nbits w

end Sys2Proof.Machine
end

