-- ==== Sys2Proof/Safety.lean ====
section
/-! DEFINITION. What counts as a good state of the block, and the terms the statements are made in: the
invariant behind 20_memory.md R98 to R100, the bytes the ring holds for the consumer, and the ADC readings a
state is about to draw. -/

namespace Sys2Proof.Machine

/-- The run has ended with a block fault (60_exceptions.md R259). -/
abbrev State.faulted (s : State) : Prop := s.fault ≠ none

/-- `s` with a fault recorded and nothing else changed but the value returned to the HOST, which is none
(60_exceptions.md R256, R258). -/
def State.faultRecorded (s : State) (ag : Agent) (opc : Byte) (code : BlockFault) : State :=
  { s with
    fault := some ⟨code, opc, ag⟩
    events := .fault code :: s.events
    ret := match ag with
      | .host => none
      | .timer => s.ret }

/-- The same operation performed `n` times in a row, as long as it answers a next state. -/
def repeatExec (i : Instr) : Nat → State → Host.Outcome State Fault Refusal
  | 0, s => .next s
  | n + 1, s =>
    match exec i s with
    | .next t => repeatExec i n t
    | .fault r => .fault r
    | .refused r => .refused r

/-- `n` steps in a row, as long as each answers a next state. -/
def repeatStep : Nat → State → Host.Outcome State Fault Refusal
  | 0, s => .next s
  | n + 1, s =>
    match step s with
    | .next t => repeatStep n t
    | .fault r => .fault r
    | .refused r => .refused r

/-- The words at an agent's command port (10_state.md R63). -/
def State.port (s : State) : Agent → List Word
  | .host => s.hostPort
  | .timer => s.timerPort

/-- `s` with other words at an agent's command port. -/
def State.withPort (s : State) (ag : Agent) (words : List Word) : State :=
  match ag with
  | .host => { s with hostPort := words }
  | .timer => { s with timerPort := words }

/-- The fault that the header checks of 30_encoding.md R120 raise for a command presented by `ag`, in their
order; `none` where the header passes them. -/
def headerCheck (ag : Agent) (w : Word) : Option BlockFault :=
  let tick : Prop := w.extractLsb' 24 8 = 0x10 ∨ w.extractLsb' 24 8 = 0x24
  if Command.opcodeOk w = false then some .illegalOpcode
  else if Command.reservedOk w = false ∨ Command.operandOk w = false then some .reservedNonzero
  else if ag = .host ∧ tick ∨ ag = .timer ∧ ¬ tick then some .wrongAgent
  else none

/-- The table of 10_state.md R58: each number with the value its register or derived flag has, `none` where a
register it reads is unwritten. -/
def State.registerTable (s : State) : List (Byte × Option Word) :=
  let word {α : Type} (r : Reg α) (f : α → Word) : Option Word := if r.written then some (f r.val) else none
  let flag (b : Bool) : Word := BitVec.ofNat 32 b.toNat
  let both (v : Word) : Option Word := if s.widx.written ∧ s.ridx.written then some v else none
  let lvl : Nat := (s.widx.val.toNat + 256 - s.ridx.val.toNat) % 256
  [ (0x00, word s.widx (BitVec.ofNat 32 ·.toNat)),
    (0x01, word s.ridx (BitVec.ofNat 32 ·.toNat)),
    (0x02, both (BitVec.ofNat 32 lvl)),
    (0x03, word s.scnt id),
    (0x04, word s.target id),
    (0x05, word s.bread id),
    (0x06, some (BitVec.ofNat 32 s.pend.toNat)),
    (0x07, some (match s.pphase with | .idle => 0 | .refill => 1 | .fetch => 2 | .commit => 3 | .drain => 4)),
    (0x08, some (match s.rbStatus with | .none => 0 | .active => 1 | .done => 2 | .aborted => 3)),
    (0x09, some (BitVec.ofNat 32 s.rbErr.toNat)),
    (0x0A, word s.aout (BitVec.ofNat 32 ·.toNat)),
    (0x0B, some (flag s.aoutEn)),
    (0x0C, some (match s.pmode with | .off => 0 | .blink => 1 | .detect => 2 | .audio => 3)),
    (0x0D, both (flag (s.ridx.val = s.widx.val))),
    (0x0E, both (flag (lvl ≤ 192))),
    (0x10, if s.threshValid then some (BitVec.ofNat 32 s.thresh.toNat) else none),
    (0x11, some (flag s.threshValid)),
    (0x12, word s.pos (BitVec.ofNat 32 ·.toNat)),
    (0x13, word s.neg (BitVec.ofNat 32 ·.toNat)),
    (0x14, word s.pos fun v => flag (4 < v.toNat)),
    (0x15, word s.ind flag),
    (0x16, some (flag s.emit)),
    (0x17, some (BitVec.ofNat 32 s.detErr.toNat)) ]

/-! ### The ring as a queue -/

/-- The ring byte `k` places after RIDX, `none` where nothing has written it. -/
def State.byteFromRead (s : State) (k : Nat) : Option Byte :=
  s.ring.read (s.ridx.val + BitVec.ofNat 8 k).toNat

/-- The published bytes, the next one to play first: ring indices `[RIDX, WIDX)` (00_scope.md Glossary). -/
def State.published (s : State) : List (Option Byte) :=
  (List.range s.level.toNat).map s.byteFromRead

/-- The bytes of a received chunk that is not committed yet: ring indices `WIDX .. WIDX + PEND - 1`
(10_state.md R60). -/
def State.uncommitted (s : State) : List (Option Byte) :=
  (List.range s.pend.toNat).map fun k => s.ring.read (s.widx.val + BitVec.ofNat 8 k).toNat

/-! ### Good states -/

/-- What holds while a session runs (20_memory.md R98 to R100, 41_audio_stream.md R144 to R148). -/
structure SessionInv (s : State) : Prop where
  written   : s.widx.written ∧ s.ridx.written ∧ s.scnt.written ∧ s.target.written ∧ s.bread.written
  /-- R98: the level never passes `RB_LOW_WATER + RB_CHUNK`. -/
  bound     : s.level.toNat ≤ 224
  /-- A chunk is in flight only where the poll saw the low-water condition (R144). -/
  requested : s.pphase = .fetch ∨ s.pphase = .commit → s.level.toNat ≤ 192
  /-- R100: committed bytes are either consumed or buffered. -/
  conserved : s.scnt.val + s.level.setWidth 32 = s.bread.val
  /-- Published and uncommitted bytes have been written (R148, R60). -/
  known     : ∀ k, k < s.level.toNat + s.pend.toNat → s.byteFromRead k ≠ none
  /-- The drain starts once TARGET bytes are read (R144). -/
  drained   : s.pphase = .drain → s.target.val ≤ s.bread.val

/-- What holds in every state reached from power-on. -/
structure BlockInv (s : State) : Prop where
  ringWf    : s.ring.wf = true
  /-- A session runs exactly while AUDIO is armed (43_control.md R234). -/
  purpose   : s.pphase ≠ .idle ↔ s.pmode = .audio
  /-- AOUT_EN is 1 exactly while AUDIO is armed (41_audio_stream.md R142, R143). -/
  output    : s.aoutEn = true ↔ s.pmode = .audio
  /-- RB_STATUS is ACTIVE exactly while a session runs (10_state.md R41). -/
  status    : s.rbStatus = .active ↔ s.pphase ≠ .idle
  /-- PEND is 0..32 (10_state.md R39). -/
  pendRange : s.pend.toNat ≤ 32
  pendZero  : s.pphase ≠ .commit → s.pend = 0
  /-- EMIT is 0 between operations (10_state.md R58). -/
  emitter   : s.emit = false
  /-- NEG holds 0 or 1 between operations (10_state.md R48). -/
  negRange  : s.neg.val.toNat ≤ 1
  streaks   : s.pmode = .detect → s.pos.written ∧ s.neg.written
  /-- RB_ERR is 0..5 (10_state.md R58). -/
  rbErr     : s.rbErr.toNat ≤ 5
  /-- DET_ERR is 0 or 6 (10_state.md R51). -/
  detErr    : s.detErr = 0 ∨ s.detErr = 6
  session   : s.pphase ≠ .idle → SessionInv s

/-! ### A session as it goes -/

/-- A session whose byte size is `target`, from its PLAY_START on, as long as it runs and nothing faults:
`Session target s committed played` says that the block is in state `s` once the chunks `committed` have been
committed, in order, and the samples `played` have been presented to the output stage, in order. Any operation of
either agent may come between (20_memory.md R93). -/
inductive Session (target : Word) : State → List Byte → List Byte → Prop where
  | start {s t : State} {startBlock : Word} : BlockInv s →
      exec (.playStart startBlock target) s = .next t → t.fault = none → Session target t [] []
  | commit {s t : State} {committed played new : List Byte} : Session target s committed played →
      s.uncommitted = new.map some → exec .rbCommit s = .next t → t.fault = none →
      Session target t (committed ++ new) played
  | play {s t : State} {committed played : List Byte} : Session target s committed played →
      s.ridx.val ≠ s.widx.val → exec .audioTick s = .next t → t.fault = none →
      Session target t committed (played ++ [t.aout.val])
  | other {s t : State} {i : Instr} {committed played : List Byte} : Session target s committed played →
      i ≠ .rbCommit → (i = .audioTick → s.ridx.val = s.widx.val) → exec i s = .next t → t.fault = none →
      t.pphase ≠ .idle → Session target t committed played

/-! ### The readings to come -/

/-- The ADC reading that the (k+1)-th `AdcRead()` from `s` on draws (10_state.md R67). -/
def State.sampleAt (s : State) (k : Nat) : Nat :=
  inSensorRange s.params <|
    match s.adc[k]? with
    | some n => n
    | none => Config.freeSample (s.draws + (k - s.adc.length))

/-- The oversampled reading of the 16 ADC reads from the k-th on (42_detector.md R181). -/
def State.ovsAt (s : State) (k : Nat) : Nat :=
  ((List.range 16).map fun j => s.sampleAt (k + j)).sum / 16

/-- `bsum` of the measurement whose 384 reads begin at the k-th (42_detector.md R182). -/
def State.bsumAt (s : State) (k : Nat) : Nat :=
  ((List.range 8).map fun i => s.ovsAt (k + 48 * i)).sum

/-- `dsum` of the measurement whose 384 reads begin at the k-th (42_detector.md R182). -/
def State.dsumAt (s : State) (k : Nat) : Nat :=
  ((List.range 8).map fun i =>
    ((s.ovsAt (k + 48 * i + 16) : Int) - s.ovsAt (k + 48 * i)).natAbs +
      ((s.ovsAt (k + 48 * i + 16) : Int) - s.ovsAt (k + 48 * i + 32)).natAbs).sum

/-- `head` of that measurement: SENSOR_MAX less the average baseline (42_detector.md R182). -/
def State.headAt (s : State) (k : Nat) : Nat := s.params.sensorMax - s.bsumAt k / 8

/-- `nd` of that measurement (42_detector.md R182). -/
def State.ndAt (s : State) (k : Nat) : Nat :=
  match s.params.normOvf with
  | .saturate => min (s.dsumAt k / 16 * 1000 / max (s.headAt k) 1) 65535
  | .truncate => s.dsumAt k / 16 * 1000 / max (s.headAt k) 1 % 65536

/-- The events of `n` ADC reads from the k-th on, in order (10_state.md R69). -/
def State.readEvents (s : State) (k n : Nat) : List Event :=
  (List.range n).map fun j => Event.adcRead (s.sampleAt (k + j))

/-- The events of one measurement interval, in order: the emitter goes on after the first oversampled reading
and off after the second (42_detector.md R182, R195). -/
def State.intervalEvents (s : State) (k : Nat) : List Event :=
  s.readEvents k 16 ++ [.emit true] ++ s.readEvents (k + 16) 16 ++ [.emit false] ++ s.readEvents (k + 32) 16

/-- The events of one measurement, in order (42_detector.md R195). -/
def State.measureEvents (s : State) (k : Nat) : List Event :=
  (List.range 8).flatMap fun i => s.intervalEvents (k + 48 * i)

/-- `s` after `n` ADC reads, the emitter left at `e`, `evs` appended to the history; nothing else changes. -/
def State.sensed (s : State) (n : Nat) (e : Bool) (evs : List Event) : State :=
  { s with
    adc := s.adc.drop n
    draws := s.draws + (n - s.adc.length)
    emit := e
    events := evs.reverse ++ s.events }

/-- `s` after `n` measurements: 384 reads each, the emitter left off (42_detector.md R195). -/
def State.afterMeasures (s : State) (n : Nat) : State :=
  s.sensed (384 * n) false ((List.range n).flatMap fun k => s.measureEvents (384 * k))

/-- The threshold search of 42_detector.md R188 as a relation: from threshold `t`, the measurements from number
`n` on having the differences `nd n, nd (n+1), ...`, the search ends with `result` (`none`: failed) after
measurement number `m - 1`. -/
inductive Search (nd : Nat → Nat) (calMax : Nat) : Nat → Nat → Option Nat → Nat → Prop where
  /-- "if the threshold has reached a fixed maximum bound, fail". -/
  | bound {t n : Nat} : calMax ≤ t → Search nd calMax t n none n
  /-- The first hit among up to 32 trials ends the round, and the threshold goes up by 5. -/
  | hit {t n j m : Nat} {result : Option Nat} : t < calMax → j < 32 → (∀ i, i < j → nd (n + i) < t) →
      t ≤ nd (n + j) → Search nd calMax (t + 5) (n + j + 1) result m → Search nd calMax t n result m
  /-- All 32 trials stay below: converged, one more step of 5 is the safety margin. -/
  | done {t n : Nat} : t < calMax → (∀ i, i < 32 → nd (n + i) < t) →
      Search nd calMax t n (some (t + 5)) (n + 32)

end Sys2Proof.Machine
end

