-- ==== Sys2Proof/Certificates/Slice0/Obligations.lean ====
section
/-! DEFINITION. The statements for the provers. Each docstring names the rule or section of spec/ it comes from,
or says that it is the model's own choice and names the log entry. -/

open Sys2Proof Sys2Proof.Machine

/-! ### Encoding -/

/-- 30_encoding.md sections 1 to 5: decoding the words of an instruction gives it back, with every operand at
every value, whatever words follow, and so does decoding for the agent that issues it. -/
def Obligations.DecodeOfEncode : Prop :=
  ∀ (i : Instr) (rest : List Word),
    decode (encode i ++ rest) = .ok (i, rest) ∧ decodeFor i.agent (encode i ++ rest) = .ok (i, rest)

/-- 30_encoding.md sections 1 to 5: a word list that decodes is the encoding of what it decodes to, so no bit is
dropped. -/
def Obligations.EncodeOfDecode : Prop :=
  ∀ (ws rest : List Word) (i : Instr), decode ws = .ok (i, rest) → ws = encode i ++ rest

/-- 30_encoding.md sections 1 to 4: the decoder takes exactly the well-formed commands. -/
def Obligations.DecodeAcceptsWellFormedCommands : Prop :=
  ∀ ws : List Word, (∃ i, decode ws = .ok (i, [])) ↔ Command.wf ws = true

/-- 30_encoding.md R117: every OPC outside the table is illegal, and which those are. -/
def Obligations.IllegalOpcodeFaults : Prop :=
  ∀ (ag : Agent) (w : Word) (rest : List Word) (s : State), s.fault = none →
    let o := (w.extractLsb' 24 8).toNat
    (Command.codes.contains (w.extractLsb' 24 8) = false ↔
      o = 0x00 ∨ 0x06 ≤ o ∧ o ≤ 0x0F ∨ 0x11 ≤ o ∧ o ≤ 0x1F ∨ 0x27 ≤ o ∧ o ≤ 0x2F ∨ 0x32 ≤ o ∧ o ≤ 0x3F ∨
        0x42 ≤ o ∧ o ≤ 0xFF) ∧
    (Command.codes.contains (w.extractLsb' 24 8) = false →
      perform ag (w :: rest) s = .next (s.faultRecorded ag (w.extractLsb' 24 8) .illegalOpcode))

/-- 30_encoding.md R118: a legal OPC with a non-zero reserved field, or a non-zero A8 field on an operation
without an 8-bit operand; and PLAY_START's operand words have no reserved bits. -/
def Obligations.ReservedBitsFault : Prop :=
  (∀ (ag : Agent) (w : Word) (rest : List Word) (s : State), s.fault = none →
    Command.codes.contains (w.extractLsb' 24 8) = true →
    (w.extractLsb' 8 16 ≠ 0 ∨
      w.extractLsb' 0 8 ≠ 0 ∧ w.extractLsb' 24 8 ≠ 0x40 ∧ w.extractLsb' 24 8 ≠ 0x41) →
    perform ag (w :: rest) s = .next (s.faultRecorded ag (w.extractLsb' 24 8) .reservedNonzero)) ∧
  ∀ (startBlock byteSize : Word) (rest : List Word),
    decode (0x01000000 :: startBlock :: byteSize :: rest) = .ok (.playStart startBlock byteSize, rest)

/-- 30_encoding.md sections 4 and 5: a tick code from the HOST, or a HOST code from the TIMER. -/
def Obligations.WrongPortFaults : Prop :=
  ∀ (ag : Agent) (i : Instr) (rest : List Word) (s : State), s.fault = none →
    (if i = .audioTick ∨ i = .detTick then ag = .host else ag = .timer) →
    perform ag (encode i ++ rest) s = .next (s.faultRecorded ag i.opcode .wrongAgent)

/-- 30_encoding.md section 3: words written out from the opcode map, one family each. -/
def Obligations.SampleWordsDecode : Prop :=
  decode [0x01000000, 0x00000007, 0x00000028] = .ok (.playStart 7 40, []) ∧
  decode [0x10000000] = .ok (.audioTick, []) ∧
  decode [0x26000000] = .ok (.detCalibrate, []) ∧
  decode [0x31000000] = .ok (.tmrDisarm, []) ∧
  decode [0x40000010] = .ok (.readReg 0x10, []) ∧
  decode [0x410000F1] = .ok (.readMem 0xF1, []) ∧
  decode [0x06000000] = .error .illegalOpcode ∧
  decode [0x02000100] = .error .reservedNonzero

/-! ### The step -/

/-- 10_state.md section 9, 60_exceptions.md section 3: in the HOST's turn the step performs the command decoded
at its port; the command's words then leave the port, unless it is a drain that holds (log 12). With no whole
command at the port nothing happens (log 18), and in a run that is over not even the turn is spent (log 10). The
input `turns` is the model's own (log 7). Words that do not decode are in StepRecordsDecodeFaults. -/
def Obligations.StepRunsDecodedHostCommand : Prop :=
  ∀ (s : State) (more : List Agent), s.fault = none → s.turns = .host :: more →
    (∀ (i : Instr) (rest : List Word), decodeFor .host s.hostPort = .ok (i, rest) →
      step s =
        match exec i { s with turns := more } with
        | .next t =>
          .next (if i = .rbDrain ∧ s.pphase = .drain ∧ s.widx.written ∧ s.ridx.written ∧
              s.ridx.val ≠ s.widx.val then t else { t with hostPort := rest })
        | .fault r => .fault r
        | .refused r => .refused r) ∧
    (commandPresent s.hostPort = false →
      step s = .next (if s.runOver then s else { s with turns := more }))

/-- 30_encoding.md section 5: in the TIMER's turn the step performs a command presented on its port (log 9).
Words that do not decode are in StepRecordsDecodeFaults, and a command that is not whole waits, as
StepRunsTimerTick says. -/
def Obligations.StepRunsDecodedTimerCommand : Prop :=
  ∀ (s : State) (i : Instr) (rest : List Word) (more : List Agent),
    s.fault = none → s.turns = .timer :: more → decodeFor .timer s.timerPort = .ok (i, rest) →
    step s =
      match exec i { s with turns := more } with
      | .next t => .next { t with timerPort := rest }
      | .fault r => .fault r
      | .refused r => .refused r

/-- 60_exceptions.md section 3: in the TIMER's turn, with no whole command presented from outside (log 9), the
step performs the tick of the armed purpose; while the HOST has a command, the indicator takes a draw while BLINK
(log 15), and nothing happens while OFF. What is left is a run that is over, in RunEnds. -/
def Obligations.StepRunsTimerTick : Prop :=
  ∀ (s : State) (more : List Agent), s.fault = none → s.turns = .timer :: more →
    commandPresent s.timerPort = false →
    (s.pmode = .audio → step s = exec .audioTick { s with turns := more }) ∧
    (s.pmode = .detect → step s = exec .detTick { s with turns := more }) ∧
    (s.pmode = .blink → commandPresent s.hostPort = true →
      ∃ b, (∀ x bits, s.bits = x :: bits → b = x) ∧ step s = .next { s with
        turns := more
        ind := ⟨b, true⟩
        events := .ind b :: s.events
        bits := s.bits.tail
        draws := s.draws + (1 - s.bits.length) }) ∧
    (s.pmode = .off → commandPresent s.hostPort = true → step s = .next { s with turns := more })

/-- 60_exceptions.md section 3: with no choice of agent given, the one ready agent moves, and with none ready the
block waits (70_reset_and_hazards.md section 1, log 10). Where the HOST has a command and a purpose is armed, the
choice is free: the TIMER's turn is then its tick, or the indicator's draw while BLINK (log 7, log 15), and a free
choice uses one of the model's free values. -/
def Obligations.StepChoosesTheReadyAgent : Prop :=
  ∀ s : State, s.fault = none → s.turns = [] → commandPresent s.timerPort = false →
    (commandPresent s.hostPort = false →
      (s.pmode = .audio → step s = exec .audioTick s) ∧
      (s.pmode = .detect → step s = exec .detTick s) ∧
      (s.pmode = .off ∨ s.pmode = .blink → step s = .next s)) ∧
    (commandPresent s.hostPort = true →
      (s.pmode = .off → step s = step { s with turns := [.host] }) ∧
      (s.pmode ≠ .off →
        step s = step { s with turns := [.host], draws := s.draws + 1 } ∨
        step s = step { s with turns := [.timer], draws := s.draws + 1 }))

/-- 60_exceptions.md R259: faults are sticky and quiescent. -/
def Obligations.FaultEndsTheRun : Prop :=
  (∀ (s : State) (r : FaultRecord), s.fault = some r →
    step s = .fault (.runEnded r) ∧ ∀ i : Instr, exec i s = .fault (.runEnded r)) ∧
  State.reset.fault = none

/-- 70_reset_and_hazards.md R300: the power-on state. Every unwritten element faults UNWRITTEN on its first read,
by READ_REG or READ_MEM, and so does every derived flag. -/
def Obligations.PowerOnState : Prop :=
  let s := State.reset
  (∀ a, s.ring.read a = none) ∧
  s.widx.written = false ∧ s.ridx.written = false ∧ s.scnt.written = false ∧ s.target.written = false ∧
  s.bread.written = false ∧ s.pend = 0 ∧ s.pphase = .idle ∧ s.rbStatus = .none ∧ s.rbErr = 0 ∧
  s.aout.written = false ∧ s.aoutEn = false ∧ s.threshValid = false ∧
  s.pos.written = false ∧ s.neg.written = false ∧ s.ind.written = false ∧ s.emit = false ∧ s.detErr = 0 ∧
  s.pmode = .off ∧ s.fault = none ∧ s.history = [] ∧
  (∀ n ∈ [(0x00 : Byte), 0x01, 0x03, 0x04, 0x05, 0x0A, 0x10, 0x12, 0x13, 0x15, 0x02, 0x0D, 0x0E, 0x14],
    exec (.readReg n) s = .next (s.faultRecorded .host 0x40 .unwritten)) ∧
  ∀ addr, exec (.readMem addr) s = .next (s.faultRecorded .host 0x41 .unwritten)

/-! ### The audio stream -/

/-- 41_audio_stream.md R143: PLAY_START. -/
def Obligations.PlayStartOpensASession : Prop :=
  ∀ (startBlock byteSize : Word) (s : State), s.fault = none →
    encode (.playStart startBlock byteSize) = [0x01000000, startBlock, byteSize] ∧
    (s.pphase ≠ .idle →
      exec (.playStart startBlock byteSize) s = .next (s.faultRecorded .host 0x01 .sessionActive)) ∧
    (s.pphase = .idle → s.pmode ≠ .off →
      exec (.playStart startBlock byteSize) s = .next (s.faultRecorded .host 0x01 .pmodeBusy)) ∧
    (s.pphase = .idle → s.pmode = .off →
      ∃ t, exec (.playStart startBlock byteSize) s = .next t ∧
        t = { s with
          aoutEn := true
          ridx := ⟨0, true⟩
          widx := ⟨0, true⟩
          scnt := ⟨0, true⟩
          target := ⟨byteSize, true⟩
          bread := ⟨0, true⟩
          pend := 0
          pmode := .audio
          pphase := .refill
          rbStatus := .active
          events := .storageStartMulti startBlock :: .timerArm .audio :: .audioEnable true :: s.events
          ret := none } ∧
        t.level = 0 ∧ t.empty = true ∧ t.lowWater = true)

/-- 41_audio_stream.md R144: RB_POLL, where the registers it reads are written (as they are in a session). -/
def Obligations.PollTestsTargetThenLevel : Prop :=
  ∀ s : State, s.fault = none →
    encode .rbPoll = [0x02000000] ∧
    (s.pphase ≠ .refill → exec .rbPoll s = .next (s.faultRecorded .host 0x02 .wrongPhase)) ∧
    (s.pphase = .refill → s.widx.written → s.ridx.written → s.bread.written → s.target.written →
      let lvl := (s.widx.val.toNat + 256 - s.ridx.val.toNat) % 256
      exec .rbPoll s = .next (
        if s.target.val.toNat ≤ s.bread.val.toNat then
          { s with pphase := .drain, events := .storageStop :: s.events, ret := some (BitVec.ofNat 32 lvl) }
        else if lvl ≤ 192 then
          { s with
            pphase := .fetch
            events := .storageRead 32 s.widx.val :: s.events
            ret := some (BitVec.ofNat 32 lvl) }
        else { s with ret := some (BitVec.ofNat 32 lvl) }))

/-- 41_audio_stream.md R145: RB_WRITE. The answer is that of the STORAGE oracle, taken from the input `storage`
or free (log 6); it is consumed whatever it is. -/
def Obligations.WriteReceivesTheChunk : Prop :=
  ∀ s : State, s.fault = none →
    let u : State := { s with storage := s.storage.tail, draws := s.draws + (1 - s.storage.length) }
    encode .rbWrite = [0x03000000] ∧
    (s.pphase ≠ .fetch → exec .rbWrite s = .next (s.faultRecorded .host 0x03 .wrongPhase)) ∧
    (s.pphase = .fetch → ∀ code, s.answer = .err code → ¬ (1 ≤ code.toNat ∧ code.toNat ≤ 5) →
      exec .rbWrite s = .next (u.faultRecorded .host 0x03 .badResponse)) ∧
    (s.pphase = .fetch → ∀ n bytes, s.answer = .ok n bytes → ¬ (n ≤ 32 ∧ bytes.length = n) →
      exec .rbWrite s = .next (u.faultRecorded .host 0x03 .badResponse)) ∧
    (s.pphase = .fetch → ∀ code, s.answer = .err code → 1 ≤ code.toNat → code.toNat ≤ 5 →
      exec .rbWrite s = .next { u with
        rbErr := code
        pmode := .off
        aoutEn := false
        pend := 0
        pphase := .idle
        rbStatus := .aborted
        events := .audioEnable false :: .timerArm .off :: s.events
        ret := none }) ∧
    (s.pphase = .fetch → ∀ n bytes, s.answer = .ok n bytes → n ≤ 32 → bytes.length = n →
      s.widx.written ∨ n = 0 →
      ∃ ring, exec .rbWrite s = .next { u with
          ring := ring, pend := BitVec.ofNat 6 n, pphase := .commit, ret := none } ∧
        (∀ (i : Nat) (h : i < bytes.length),
          ring.read (s.widx.val + BitVec.ofNat 8 i).toNat = some bytes[i]) ∧
        ∀ a : Nat, (∀ i, i < n → a ≠ (s.widx.val + BitVec.ofNat 8 i).toNat) → ring.read a = s.ring.read a)

/-- 41_audio_stream.md R146: RB_COMMIT, where the registers it reads are written (as they are in a session). -/
def Obligations.CommitPublishesTheChunk : Prop :=
  ∀ s : State, s.fault = none →
    encode .rbCommit = [0x04000000] ∧
    (s.pphase ≠ .commit → exec .rbCommit s = .next (s.faultRecorded .host 0x04 .wrongPhase)) ∧
    (s.pphase = .commit → s.widx.written → s.ridx.written → s.bread.written →
      let lvl := (s.widx.val.toNat + 256 - s.ridx.val.toNat) % 256
      (255 < lvl + s.pend.toNat → exec .rbCommit s = .next (s.faultRecorded .host 0x04 .overrun)) ∧
      (lvl + s.pend.toNat ≤ 255 →
        ∃ t, exec .rbCommit s = .next t ∧
          t = { s with
            widx := ⟨BitVec.ofNat 8 (s.widx.val.toNat + s.pend.toNat), true⟩
            bread := ⟨BitVec.ofNat 32 (s.bread.val.toNat + s.pend.toNat), true⟩
            pend := 0
            pphase := .refill
            ret := none } ∧
          t.level.toNat = lvl + s.pend.toNat ∧ (0 < s.pend.toNat → t.empty = false) ∧
          (t.lowWater = true ↔ lvl + s.pend.toNat ≤ 192)))

/-- 41_audio_stream.md R147: RB_DRAIN, where the indices are written (as they are in a session). A drain that
holds changes no state. -/
def Obligations.DrainWaitsThenTearsDown : Prop :=
  ∀ s : State, s.fault = none →
    encode .rbDrain = [0x05000000] ∧
    (s.pphase ≠ .drain → exec .rbDrain s = .next (s.faultRecorded .host 0x05 .wrongPhase)) ∧
    (s.pphase = .drain → s.widx.written → s.ridx.written →
      (s.ridx.val ≠ s.widx.val → exec .rbDrain s = .next s) ∧
      (s.ridx.val = s.widx.val → exec .rbDrain s = .next { s with
        pmode := .off
        aoutEn := false
        pend := 0
        pphase := .idle
        rbStatus := .done
        events := .audioEnable false :: .timerArm .off :: s.events
        ret := none }))

/-- 10_state.md section 9, 00_scope.md section 6: a drain that holds stays at the HOST port, and the step is
lifted only by the other agent: every further turn of the HOST leaves the block as it is (log 12). -/
def Obligations.HeldDrainIsRetried : Prop :=
  ∀ (s : State) (rest : List Word) (more : List Agent), s.fault = none → s.pphase = .drain →
    s.widx.written → s.ridx.written → s.ridx.val ≠ s.widx.val →
    s.hostPort = 0x05000000 :: rest → s.turns = .host :: more →
    step s = .next { s with turns := more }

/-- 41_audio_stream.md R142: the teardown at both exits of a session; the indices, the counters, AOUT and the
ring keep their values. -/
def Obligations.TeardownOnEveryExit : Prop :=
  ∀ s t : State, s.fault = none → BlockInv s →
    ((exec .rbDrain s = .next t ∧ s.pphase = .drain ∧ s.ridx.val = s.widx.val) ∨
      (exec .rbWrite s = .next t ∧ s.pphase = .fetch ∧
        ∃ code, s.answer = .err code ∧ 1 ≤ code.toNat ∧ code.toNat ≤ 5)) →
    t.pmode = .off ∧ t.aoutEn = false ∧ t.pend = 0 ∧ t.pphase = .idle ∧
    t.events = .audioEnable false :: .timerArm .off :: s.events ∧
    t.rbStatus = (if s.pphase = .drain then .done else .aborted) ∧
    t.widx = s.widx ∧ t.ridx = s.ridx ∧ t.scnt = s.scnt ∧ t.target = s.target ∧ t.bread = s.bread ∧
    t.aout = s.aout ∧ (∀ a, t.ring.read a = s.ring.read a)

/-- 41_audio_stream.md R148: AUDIO_TICK, where the registers it reads are written (as they are in a session). -/
def Obligations.AudioTickPlaysOneSample : Prop :=
  ∀ s : State, s.fault = none →
    encode .audioTick = [0x10000000] ∧
    (s.pmode ≠ .audio → exec .audioTick s = .next (s.faultRecorded .timer 0x10 .wrongAgent)) ∧
    (s.pmode = .audio → s.widx.written → s.ridx.written →
      (s.ridx.val = s.widx.val → exec .audioTick s = .next s) ∧
      (s.ridx.val ≠ s.widx.val → s.scnt.written → s.target.written →
        let played (v : Byte) : State := { s with
          aout := ⟨v, true⟩
          ridx := ⟨BitVec.ofNat 8 (s.ridx.val.toNat + 1), true⟩
          scnt := ⟨BitVec.ofNat 32 (s.scnt.val.toNat + 1), true⟩
          events := .sample v :: s.events }
        (s.scnt.val.toNat < s.target.val.toNat →
          (∀ v, s.ring.read s.ridx.val.toNat = some v → exec .audioTick s = .next (played v)) ∧
          (s.ring.read s.ridx.val.toNat = none →
            exec .audioTick s = .next (s.faultRecorded .timer 0x10 .unwritten))) ∧
        (s.target.val.toNat ≤ s.scnt.val.toNat → exec .audioTick s = .next (played s.params.midscale))))

/-- 00_scope.md section 6 (register access), 10_state.md section 1: an operation of the stream or the detection
tick that reads a register nothing has written faults UNWRITTEN; where these checks stand is log 14. -/
def Obligations.UnwrittenReadsFault : Prop :=
  ∀ s : State, s.fault = none →
    (s.pphase = .refill → ¬ (s.widx.written ∧ s.ridx.written ∧ s.bread.written ∧ s.target.written) →
      exec .rbPoll s = .next (s.faultRecorded .host 0x02 .unwritten)) ∧
    (s.pphase = .fetch → s.widx.written = false → ∀ n bytes, s.answer = .ok n bytes → n ≤ 32 →
      bytes.length = n → 0 < n →
      exec .rbWrite s = .next (State.faultRecorded { s with
        storage := s.storage.tail, draws := s.draws + (1 - s.storage.length) } .host 0x03 .unwritten)) ∧
    (s.pphase = .commit → ¬ (s.widx.written ∧ s.ridx.written ∧ s.bread.written) →
      exec .rbCommit s = .next (s.faultRecorded .host 0x04 .unwritten)) ∧
    (s.pphase = .drain → ¬ (s.widx.written ∧ s.ridx.written) →
      exec .rbDrain s = .next (s.faultRecorded .host 0x05 .unwritten)) ∧
    (s.pmode = .audio → ¬ (s.widx.written ∧ s.ridx.written) →
      exec .audioTick s = .next (s.faultRecorded .timer 0x10 .unwritten)) ∧
    (s.pmode = .audio → s.widx.written → s.ridx.written → s.ridx.val ≠ s.widx.val →
      ¬ (s.scnt.written ∧ s.target.written) →
      exec .audioTick s = .next (s.faultRecorded .timer 0x10 .unwritten)) ∧
    (s.pmode = .detect → s.threshValid = true → ¬ (s.pos.written ∧ s.neg.written) →
      exec .detTick s = .next (s.faultRecorded .timer 0x24 .unwritten))

/-! ### The detector -/

/-- 42_detector.md R181: `OVS()` is the floor of the average of the next 16 readings, and reads nothing else. -/
def Obligations.OversampledReading : Prop :=
  ∀ s : State, ovs s = (s.ovsAt 0, s.sensed 16 s.emit (s.readEvents 0 16))

/-- 42_detector.md R182: `measure()` and DET_MEASURE. -/
def Obligations.MeasureReturnsHeadAndDifference : Prop :=
  ∀ s : State, s.fault = none →
    encode .detMeasure = [0x20000000] ∧
    measure s = ((s.ndAt 0, s.headAt 0), s.afterMeasures 1) ∧
    (s.pphase ≠ .idle → exec .detMeasure s = .next (s.faultRecorded .host 0x20 .sessionActive)) ∧
    (s.pphase = .idle → s.pmode ≠ .off → s.pmode ≠ .blink →
      exec .detMeasure s = .next (s.faultRecorded .host 0x20 .pmodeBusy)) ∧
    (s.pphase = .idle → s.pmode = .off ∨ s.pmode = .blink →
      exec .detMeasure s = .next { s.afterMeasures 1 with
        ret := some (BitVec.ofNat 32 (s.headAt 0 % 65536 * 65536 + s.ndAt 0)) })

/-- 42_detector.md R195, first clause: what one measurement draws and drives. -/
def Obligations.MeasureDrawsAndDrives : Prop :=
  ∀ s t : State, s.fault = none → s.pphase = .idle → s.pmode = .off ∨ s.pmode = .blink →
    exec .detMeasure s = .next t →
    t.emit = false ∧ ∃ new, t.history = s.history ++ new ∧
      (new.filter fun e => match e with | .adcRead _ => true | _ => false).length = 384 ∧
      (new.filter fun e => match e with | .adcRead _ => false | _ => true) =
        (List.replicate 8 [Event.emit true, Event.emit false]).flatten

/-- 42_detector.md R194: the normalized difference stays within 0..1000 where the difference average does not
exceed the headroom. -/
def Obligations.MeasuredDifferenceRange : Prop :=
  ∀ s t : State, s.fault = none → s.pphase = .idle → s.pmode = .off ∨ s.pmode = .blink →
    1 ≤ s.headAt 0 → s.dsumAt 0 / 16 ≤ s.headAt 0 → exec .detMeasure s = .next t →
    ∃ v : Word, t.ret = some v ∧ (v.extractLsb' 0 16).toNat ≤ 1000

/-- 42_detector.md R183: DET_GET_AVG. -/
def Obligations.BaselineRead : Prop :=
  ∀ s : State, s.fault = none →
    encode .detGetAvg = [0x21000000] ∧
    (s.pphase ≠ .idle → exec .detGetAvg s = .next (s.faultRecorded .host 0x21 .sessionActive)) ∧
    (s.pphase = .idle → s.pmode ≠ .off → s.pmode ≠ .blink →
      exec .detGetAvg s = .next (s.faultRecorded .host 0x21 .pmodeBusy)) ∧
    (s.pphase = .idle → s.pmode = .off ∨ s.pmode = .blink →
      exec .detGetAvg s = .next { s.sensed 16 s.emit (s.readEvents 0 16) with
        ret := some (BitVec.ofNat 32 (s.ovsAt 0)) }) ∧
    s.ovsAt 0 ≤ s.params.sensorMax

/-- 42_detector.md R184: DET_START. The indicator takes a draw (log 6). -/
def Obligations.DetectionStarts : Prop :=
  ∀ s : State, s.fault = none →
    encode .detStart = [0x22000000] ∧
    (s.pphase ≠ .idle → exec .detStart s = .next (s.faultRecorded .host 0x22 .sessionActive)) ∧
    (s.pphase = .idle → s.pmode ≠ .off →
      exec .detStart s = .next (s.faultRecorded .host 0x22 .pmodeBusy)) ∧
    (s.pphase = .idle → s.pmode = .off →
      ∃ b t, exec .detStart s = .next t ∧ (∀ x more, s.bits = x :: more → b = x) ∧ t.alarm = false ∧
        t = { s with
          pos := ⟨0, true⟩
          neg := ⟨0, true⟩
          ind := ⟨b, true⟩
          pmode := .detect
          events := .timerArm .detect :: .ind b :: s.events
          ret := none
          bits := s.bits.tail
          draws := s.draws + (1 - s.bits.length) })

/-- 42_detector.md R185: DET_STOP keeps the streaks. -/
def Obligations.DetectionStops : Prop :=
  ∀ s : State, s.fault = none →
    encode .detStop = [0x23000000] ∧
    (s.pphase ≠ .idle → exec .detStop s = .next (s.faultRecorded .host 0x23 .sessionActive)) ∧
    (s.pphase = .idle → s.pmode ≠ .detect → s.pmode ≠ .off →
      exec .detStop s = .next (s.faultRecorded .host 0x23 .pmodeBusy)) ∧
    (s.pphase = .idle → s.pmode = .detect ∨ s.pmode = .off →
      ∃ b, (∀ x more, s.bits = x :: more → b = x) ∧
        exec .detStop s = .next { s with
          ind := ⟨b, true⟩
          pmode := .off
          events := .ind b :: (if s.pmode = .detect then .timerArm .off :: s.events else s.events)
          ret := none
          bits := s.bits.tail
          draws := s.draws + (1 - s.bits.length) })

/-- 42_detector.md R186: DET_TICK, where the streaks are written (as DET_START leaves them) and NEG holds 0 or 1
(10_state.md R48). -/
def Obligations.DetectionTickDebounces : Prop :=
  ∀ s : State, s.fault = none →
    encode .detTick = [0x24000000] ∧
    (s.pmode ≠ .detect → exec .detTick s = .next (s.faultRecorded .timer 0x24 .wrongAgent)) ∧
    (s.pmode = .detect → s.threshValid = false →
      exec .detTick s = .next (s.faultRecorded .timer 0x24 .unwritten)) ∧
    (s.pmode = .detect → s.threshValid = true → s.pos.written → s.neg.written → s.neg.val.toNat ≤ 1 →
      let u := s.afterMeasures 1
      (s.thresh.toNat ≤ s.ndAt 0 →
        exec .detTick s = .next { u with
          pos := ⟨BitVec.ofNat 8 (match s.params.streakOvf with
            | .wrap => (s.pos.val.toNat + 1) % 256
            | .saturate => min (s.pos.val.toNat + 1) 255), true⟩
          neg := ⟨0, true⟩
          ind := ⟨true, true⟩
          events := .ind true :: u.events }) ∧
      (s.ndAt 0 < s.thresh.toNat →
        ∃ b, (∀ x more, s.bits = x :: more → b = x) ∧
          exec .detTick s = .next { u with
            pos := if s.neg.val = 1 then ⟨0, true⟩ else s.pos
            neg := if s.neg.val = 1 then ⟨0, true⟩ else ⟨1, true⟩
            ind := ⟨b, true⟩
            events := .ind b :: u.events
            bits := s.bits.tail
            draws := u.draws + (1 - s.bits.length) }))

/-- 42_detector.md R187: DET_IS_ALARM, under any purpose but AUDIO. -/
def Obligations.AlarmIsAboveTheTrigger : Prop :=
  ∀ s : State, s.fault = none →
    encode .detIsAlarm = [0x25000000] ∧
    (s.pphase ≠ .idle → exec .detIsAlarm s = .next (s.faultRecorded .host 0x25 .sessionActive)) ∧
    (s.pphase = .idle → s.pmode ≠ .audio → s.pos.written = false →
      exec .detIsAlarm s = .next (s.faultRecorded .host 0x25 .unwritten)) ∧
    (s.pphase = .idle → s.pmode ≠ .audio → s.pos.written = true →
      exec .detIsAlarm s = .next { s with ret := some (if 4 < s.pos.val.toNat then 1 else 0) })

/-- 42_detector.md R188: DET_CALIBRATE is the threshold search, over as many measurements as the search takes. -/
def Obligations.CalibrationSearches : Prop :=
  ∀ s : State, s.fault = none →
    encode .detCalibrate = [0x26000000] ∧
    (s.pphase ≠ .idle → exec .detCalibrate s = .next (s.faultRecorded .host 0x26 .sessionActive)) ∧
    (s.pphase = .idle → s.pmode ≠ .off →
      exec .detCalibrate s = .next (s.faultRecorded .host 0x26 .pmodeBusy)) ∧
    (s.pphase = .idle → s.pmode = .off →
      ∃ result m, Search (fun j => s.ndAt (384 * j)) s.params.calMax (s.ndAt 0) 1 result m ∧
        exec .detCalibrate s = .next (match result with
          | none => { s.afterMeasures m with detErr := 6, ret := some 0 }
          | some t => { s.afterMeasures m with
              thresh := BitVec.ofNat 16 t, threshValid := true, ret := some 1 }))

/-- 42_detector.md section 2, R188 read as a function: every run of the search over the measurements to come is
the one DET_CALIBRATE makes, so that the search has one result and one length. -/
def Obligations.SearchIsDeterministic : Prop :=
  ∀ s : State, s.fault = none → s.pphase = .idle → s.pmode = .off →
    ∀ result m, Search (fun j => s.ndAt (384 * j)) s.params.calMax (s.ndAt 0) 1 result m →
      exec .detCalibrate s = .next (match result with
        | none => { s.afterMeasures m with detErr := 6, ret := some 0 }
        | some t => { s.afterMeasures m with
            thresh := BitVec.ofNat 16 t, threshValid := true, ret := some 1 })

/-- 42_detector.md section 3 (calibration bound): at most `1 + 32 K` measurements, `K = ceil((CAL_MAX - t0)/5)`,
each of 384 readings; one measurement when the start has reached the bound. -/
def Obligations.CalibrationIsBounded : Prop :=
  ∀ s t : State, s.fault = none → s.pphase = .idle → s.pmode = .off → exec .detCalibrate s = .next t →
    ∃ m, 1 ≤ m ∧ m ≤ 1 + 32 * ((s.params.calMax - s.ndAt 0 + 4) / 5) ∧
      t.adc = s.adc.drop (384 * m) ∧ t.draws = s.draws + (384 * m - s.adc.length)

/-- 42_detector.md section 3 (calibration result, and the values the threshold takes): on success THRESH is the
start plus a positive multiple of 5, and the last 32 measurements the calibration made, those of the round that
converged, are all below THRESH by more than 5; the parameters meet 00_scope.md R10. -/
def Obligations.CalibratedThresholdClears : Prop :=
  ∀ s t : State, s.fault = none → s.pphase = .idle → s.pmode = .off → s.params.wf →
    exec .detCalibrate s = .next t → t.ret = some 1 →
    t.threshValid = true ∧ (∃ k, 1 ≤ k ∧ t.thresh.toNat = s.ndAt 0 + 5 * k) ∧
      ∃ n, 1 ≤ n ∧ t.adc = s.adc.drop (384 * (n + 32)) ∧ t.draws = s.draws + (384 * (n + 32) - s.adc.length) ∧
        ∀ i, i < 32 → s.ndAt (384 * (n + i)) + 5 < t.thresh.toNat

/-- 42_detector.md section 3 (hysteresis): an isolated negative tick does not reset POS, two in a row reset both
streaks. -/
def Obligations.HysteresisOfTheStreaks : Prop :=
  ∀ s t u : State, s.fault = none → s.pmode = .detect → s.threshValid = true → s.pos.written = true →
    s.neg = ⟨0, true⟩ → s.pos.val.toNat < 255 →
    exec .detTick s = .next t → exec .detTick t = .next u → s.ndAt 0 < s.thresh.toNat →
    t.pos = s.pos ∧ t.neg = ⟨1, true⟩ ∧
    (s.thresh.toNat ≤ t.ndAt 0 → u.pos = ⟨s.pos.val + 1, true⟩ ∧ u.neg = ⟨0, true⟩) ∧
    (t.ndAt 0 < s.thresh.toNat → u.pos = ⟨0, true⟩ ∧ u.neg = ⟨0, true⟩)

/-! ### The timer purpose and the diagnostic reads -/

/-- 43_control.md section 1: TMR_ARM_BLINK. What the TIMER does while BLINK is in StepRunsTimerTick (log 15). -/
def Obligations.BlinkArms : Prop :=
  ∀ s : State, s.fault = none →
    encode .tmrArmBlink = [0x30000000] ∧
    (s.pphase ≠ .idle → exec .tmrArmBlink s = .next (s.faultRecorded .host 0x30 .sessionActive)) ∧
    (s.pphase = .idle → s.pmode ≠ .off →
      exec .tmrArmBlink s = .next (s.faultRecorded .host 0x30 .pmodeBusy)) ∧
    (s.pphase = .idle → s.pmode = .off →
      exec .tmrArmBlink s = .next { s with
        pmode := .blink, events := .timerArm .blink :: s.events, ret := none })

/-- 43_control.md R231: TMR_DISARM. -/
def Obligations.BlinkDisarms : Prop :=
  ∀ s : State, s.fault = none →
    encode .tmrDisarm = [0x31000000] ∧
    (s.pphase ≠ .idle → exec .tmrDisarm s = .next (s.faultRecorded .host 0x31 .sessionActive)) ∧
    (s.pphase = .idle → s.pmode ≠ .blink → s.pmode ≠ .off →
      exec .tmrDisarm s = .next (s.faultRecorded .host 0x31 .pmodeBusy)) ∧
    (s.pphase = .idle → s.pmode = .off → exec .tmrDisarm s = .next { s with ret := none }) ∧
    (s.pphase = .idle → s.pmode = .blink →
      ∃ b, (∀ x more, s.bits = x :: more → b = x) ∧
        exec .tmrDisarm s = .next { s with
          pmode := .off
          ind := ⟨b, true⟩
          events := .ind b :: .timerArm .off :: s.events
          ret := none
          bits := s.bits.tail
          draws := s.draws + (1 - s.bits.length) })

/-- 43_control.md R232 with the register numbers of 10_state.md R58: READ_REG. -/
def Obligations.ReadRegReadsTheTable : Prop :=
  ∀ (s : State) (regno : Byte), s.fault = none →
    encode (.readReg regno) = [BitVec.ofNat 32 (0x40000000 + regno.toNat)] ∧
    exec (.readReg regno) s = .next (
      match s.registerTable.lookup regno with
      | some (some v) => { s with ret := some v }
      | some none => s.faultRecorded .host 0x40 .unwritten
      | none => s.faultRecorded .host 0x40 .badRegno)

/-- 43_control.md R233: READ_MEM. -/
def Obligations.ReadMemReadsTheRing : Prop :=
  ∀ (s : State) (addr : Byte), s.fault = none →
    encode (.readMem addr) = [BitVec.ofNat 32 (0x41000000 + addr.toNat)] ∧
    (∀ v, s.ring.read addr.toNat = some v →
      exec (.readMem addr) s = .next { s with ret := some (BitVec.ofNat 32 v.toNat) }) ∧
    (s.ring.read addr.toNat = none →
      exec (.readMem addr) s = .next (s.faultRecorded .host 0x41 .unwritten))

/-! ### The whole machine -/

/-- 60_exceptions.md R256: a fault an operation takes changes nothing but the record, the history and the value
returned; the storage answer an RB_WRITE consumed stays consumed. -/
def Obligations.FaultsArePrecise : Prop :=
  ∀ (i : Instr) (s t : State), s.fault = none → exec i s = .next t → t.fault ≠ none →
    ∃ code, t = s.faultRecorded i.agent i.opcode code ∨
      i = .rbWrite ∧ s.pphase = .fetch ∧
        t = State.faultRecorded { s with
          storage := s.storage.tail, draws := s.draws + (1 - s.storage.length) } .host 0x03 code

/-- 20_memory.md section 9, 43_control.md section 3: the invariant of the block is kept by every step, from every
state that has it. -/
def Obligations.StepKeepsTheInvariant : Prop :=
  ∀ s t : State, BlockInv s → step s = .next t → BlockInv t

/-- 70_reset_and_hazards.md section 1: the power-on state meets the invariant. It rests on the bits the model
keeps beside a clear written-attribute (NEG's, log 2). -/
def Obligations.ResetMeetsTheInvariant : Prop := BlockInv State.reset

/-- 20_memory.md section 1: every step keeps the ring memory in its canonical form (log 5). -/
def Obligations.StepKeepsTheRingCanonical : Prop :=
  ∀ s t : State, s.ring.wf = true → step s = .next t → t.ring.wf = true

/-- 20_memory.md section 9 (bound), 60_exceptions.md section 2: from a good state the operations of a session in
their phases never fault, and the level stays within 224. -/
def Obligations.SessionNeverFaults : Prop :=
  ∀ s : State, BlockInv s → s.fault = none →
    (s.pphase = .refill → ∃ t, exec .rbPoll s = .next t ∧ t.fault = none) ∧
    (s.pphase = .fetch → answerOk s.answer = true → ∃ t, exec .rbWrite s = .next t ∧ t.fault = none) ∧
    (s.pphase = .commit →
      ∃ t, exec .rbCommit s = .next t ∧ t.fault = none ∧ t.level.toNat = s.level.toNat + s.pend.toNat ∧
        t.level.toNat ≤ 224) ∧
    (s.pphase = .drain → ∃ t, exec .rbDrain s = .next t ∧ t.fault = none) ∧
    (s.pmode = .audio → ∃ t, exec .audioTick s = .next t ∧ t.fault = none)

/-- 20_memory.md section 9 (no published byte overwritten, order): the ring is a queue. PLAY_START empties it,
RB_WRITE adds bytes behind it unseen, RB_COMMIT appends them, a non-empty AUDIO_TICK takes the first, and no other
operation touches it. -/
def Obligations.RingIsAQueue : Prop :=
  ∀ s t : State, BlockInv s → s.fault = none →
    (∀ sb bs, exec (.playStart sb bs) s = .next t → t.fault = none → t.published = [] ∧ t.uncommitted = []) ∧
    (∀ n bytes, s.answer = .ok n bytes → exec .rbWrite s = .next t → t.fault = none →
      t.published = s.published ∧ t.uncommitted = bytes.map some) ∧
    (exec .rbCommit s = .next t → t.fault = none →
      t.published = s.published ++ s.uncommitted ∧ t.uncommitted = []) ∧
    (exec .audioTick s = .next t → t.fault = none →
      if s.ridx.val = s.widx.val then t.published = s.published
      else ∃ v, s.published = some v :: t.published ∧ (s.scnt.val < s.target.val → t.aout = ⟨v, true⟩)) ∧
    (∀ i : Instr, (∀ sb bs, i ≠ .playStart sb bs) → i ≠ .rbWrite → i ≠ .rbCommit → i ≠ .audioTick →
      exec i s = .next t → t.published = s.published)

/-- 20_memory.md section 9 (order), 41_audio_stream.md section 3 (done session): the samples of a session are the
committed bytes in order, and silence once TARGET samples have been counted (the counter is SCNT, 32 bits); what is
committed and not played yet is what the ring holds; a session that ends DONE has played all of it. -/
def Obligations.SessionPlaysTheCommittedBytes : Prop :=
  ∀ (target : Word) (s : State) (committed played : List Byte), Session target s committed played →
    played.length ≤ committed.length ∧
    s.published = (committed.drop played.length).map some ∧
    (∀ (k : Nat) (v : Byte), played[k]? = some v →
      if k % 2 ^ 32 < target.toNat then committed[k]? = some v else v = s.params.midscale) ∧
    ∀ t, exec .rbDrain s = .next t → t.rbStatus = .done → played.length = committed.length

/-- 41_audio_stream.md section 3 (drain): from a good state in DRAIN, exactly LEVEL ticks empty the ring, and
RB_DRAIN then ends the session DONE. That a drain which holds answers the state it is given is log 12. -/
def Obligations.DrainTakesLevelTicks : Prop :=
  ∀ s : State, BlockInv s → s.fault = none → s.pphase = .drain →
    (∀ k, k < s.level.toNat → ∃ t, repeatExec .audioTick k s = .next t ∧ t.ridx.val ≠ t.widx.val ∧
      exec .rbDrain t = .next t) ∧
    ∃ t u, repeatExec .audioTick s.level.toNat s = .next t ∧ t.ridx.val = t.widx.val ∧
      exec .rbDrain t = .next u ∧ u.rbStatus = .done ∧ u.pmode = .off ∧ u.fault = none

/-- 41_audio_stream.md section 3 (empty clip): PLAY_START with byteSize 0, a poll and a drain: no read, no sample,
result DONE. -/
def Obligations.EmptyClipEndsAtOnce : Prop :=
  ∀ (startBlock : Word) (s : State), s.fault = none → s.pphase = .idle → s.pmode = .off →
    ∃ t u v, exec (.playStart startBlock 0) s = .next t ∧ exec .rbPoll t = .next u ∧
      exec .rbDrain u = .next v ∧ u.pphase = .drain ∧ v.rbStatus = .done ∧ v.pphase = .idle ∧ v.fault = none ∧
      v.history = s.history ++ [.audioEnable true, .timerArm .audio, .storageStartMulti startBlock, .storageStop,
        .timerArm .off, .audioEnable false]

/-- 43_control.md section 3: in a good state the purpose moves only along the rows of the table there, so that
every change passes through OFF. -/
def Obligations.PurposeMovesThroughOff : Prop :=
  ∀ (i : Instr) (s t : State), BlockInv s → exec i s = .next t → t.pmode ≠ s.pmode →
    (s.pmode = .off ∧ t.pmode = .audio ∧ ∃ sb bs, i = .playStart sb bs) ∨
    (s.pmode = .audio ∧ t.pmode = .off ∧ (i = .rbDrain ∧ t.rbStatus = .done ∨
      i = .rbWrite ∧ t.rbStatus = .aborted)) ∨
    (s.pmode = .off ∧ t.pmode = .detect ∧ i = .detStart) ∨
    (s.pmode = .detect ∧ t.pmode = .off ∧ i = .detStop) ∨
    (s.pmode = .off ∧ t.pmode = .blink ∧ i = .tmrArmBlink) ∨
    (s.pmode = .blink ∧ t.pmode = .off ∧ i = .tmrDisarm)

/-- 10_state.md section 1 (R32's second sentence): no step clears a written-attribute, of a register or of a ring
byte. -/
def Obligations.WrittenStaysWritten : Prop :=
  ∀ s t : State, step s = .next t →
    (s.widx.written → t.widx.written) ∧ (s.ridx.written → t.ridx.written) ∧ (s.scnt.written → t.scnt.written) ∧
    (s.target.written → t.target.written) ∧ (s.bread.written → t.bread.written) ∧
    (s.aout.written → t.aout.written) ∧ (s.threshValid → t.threshValid) ∧ (s.pos.written → t.pos.written) ∧
    (s.neg.written → t.neg.written) ∧ (s.ind.written → t.ind.written) ∧
    (∀ a, s.ring.read a ≠ none → t.ring.read a ≠ none)

/-- 10_state.md section 9 (R69's first sentence): a step only appends to the event history. -/
def Obligations.HistoryOnlyGrows : Prop :=
  ∀ s t : State, step s = .next t → ∃ new, t.history = s.history ++ new

/-- 10_state.md section 1, columns "register" and "written by": no other operation writes a register of the
block. The teardown is that of RB_DRAIN and of RB_WRITE (41_audio_stream.md section 1); a measurement is inside
DET_MEASURE, DET_TICK and DET_CALIBRATE; FAULT is written by any operation, from none and to its own record. -/
def Obligations.RegistersHaveTheirWriters : Prop :=
  ∀ (i : Instr) (s t : State), exec i s = .next t →
    let playStart := ∃ sb bs, i = .playStart sb bs
    let teardown := i = .rbDrain ∨ i = .rbWrite
    (t.widx ≠ s.widx → playStart ∨ i = .rbCommit) ∧
    (t.ridx ≠ s.ridx → playStart ∨ i = .audioTick) ∧
    (t.scnt ≠ s.scnt → playStart ∨ i = .audioTick) ∧
    (t.target ≠ s.target → playStart) ∧
    (t.bread ≠ s.bread → playStart ∨ i = .rbCommit) ∧
    (t.pend ≠ s.pend → playStart ∨ i = .rbWrite ∨ i = .rbCommit ∨ teardown) ∧
    (t.pphase ≠ s.pphase → playStart ∨ i = .rbPoll ∨ i = .rbWrite ∨ i = .rbCommit ∨ i = .rbDrain) ∧
    (t.rbStatus ≠ s.rbStatus → playStart ∨ teardown) ∧
    (t.rbErr ≠ s.rbErr → i = .rbWrite) ∧
    (t.aout ≠ s.aout → i = .audioTick) ∧
    (t.aoutEn ≠ s.aoutEn → playStart ∨ teardown) ∧
    (t.thresh ≠ s.thresh ∨ t.threshValid ≠ s.threshValid → i = .detCalibrate) ∧
    (t.pos ≠ s.pos ∨ t.neg ≠ s.neg → i = .detStart ∨ i = .detTick) ∧
    (t.ind ≠ s.ind → i = .detStart ∨ i = .detStop ∨ i = .detTick ∨ i = .tmrDisarm) ∧
    (t.emit ≠ s.emit → i = .detMeasure ∨ i = .detTick ∨ i = .detCalibrate) ∧
    (t.detErr ≠ s.detErr → i = .detCalibrate) ∧
    (t.pmode ≠ s.pmode → playStart ∨ teardown ∨ i = .detStart ∨ i = .detStop ∨ i = .tmrArmBlink ∨
      i = .tmrDisarm) ∧
    (t.fault ≠ s.fault → s.fault = none ∧ ∃ code, t.fault = some ⟨code, i.opcode, i.agent⟩) ∧
    (∀ a, t.ring.read a ≠ s.ring.read a → i = .rbWrite)

/-- 41_audio_stream.md R150: the producer never requests a chunk when the low-water condition is false: the only
operation that emits StorageRead is RB_POLL, and only at a level of at most 192. -/
def Obligations.ChunkRequestedOnlyAtLowWater : Prop :=
  ∀ (i : Instr) (s t : State) (new : List Event) (n : Nat) (addr : Byte), exec i s = .next t →
    t.events = new ++ s.events → Event.storageRead n addr ∈ new →
    i = .rbPoll ∧ (s.widx.val - s.ridx.val).toNat ≤ 192 ∧ n = 32 ∧ addr = s.widx.val

/-- 10_state.md section 9 (ADC port): every reading a step records is within the sensor's range. -/
def Obligations.ReadingsAreInRange : Prop :=
  ∀ s t : State, step s = .next t → ∃ new, t.events = new ++ s.events ∧
    ∀ v, Event.adcRead v ∈ new → v ≤ s.params.sensorMax

/-- 00_scope.md section 5: the parameters are fixed; no step changes them (log 1). -/
def Obligations.ParametersAreFixed : Prop :=
  ∀ s t : State, step s = .next t → t.params = s.params

/-! ### Decode faults and the end of a run -/

/-- 30_encoding.md section 5, 60_exceptions.md section 2: in an agent's turn, with a whole command at its port,
the step records the fault of the first header check that fails and takes the command's words from the port; a
header that passes the checks decodes. The ports' words are the model's inputs (log 8, log 9), the length of a
command is R113's (log 18). -/
def Obligations.StepRecordsDecodeFaults : Prop :=
  ∀ (ag : Agent) (s : State) (more : List Agent) (w : Word) (rest : List Word),
    s.fault = none → s.turns = ag :: more → s.port ag = w :: rest →
    let opc := w.extractLsb' 24 8
    let length := if opc = 0x01 then 3 else 1
    length ≤ rest.length + 1 →
      match headerCheck ag w with
      | some code => step s = .next
          ((State.faultRecorded { s with turns := more } ag opc code).withPort ag ((w :: rest).drop length))
      | none => ∃ i, decodeFor ag (w :: rest) = .ok (i, (w :: rest).drop length) ∧ i.opcode = opc ∧ i.agent = ag

/-- 70_reset_and_hazards.md section 5 (end of run): a run is over when the HOST has no further command, no session
runs and the purpose is OFF or BLINK; the block is then quiescent, which the model's step shows by answering the
same state (log 10). In detection with a threshold and no further command the run never ends: every step is a
DET_TICK, and none faults. -/
def Obligations.RunEnds : Prop :=
  ∀ (s : State) (n : Nat), s.fault = none → commandPresent s.hostPort = false →
    commandPresent s.timerPort = false →
    (s.pphase = .idle → s.pmode = .off ∨ s.pmode = .blink → s.runOver = true ∧ repeatStep n s = .next s) ∧
    (BlockInv s → s.pmode = .detect → s.threshValid = true → s.turns = [] →
      ∃ t, repeatStep n s = .next t ∧ repeatExec .detTick n s = .next t ∧ t.fault = none ∧
        t.pmode = .detect ∧ t.runOver = false)
end

