-- ==== Sys2Proof/Laws/Decode.lean ====
section
/-! SUPPORT. The fields of a header word (30_encoding.md R111): packing and unpacking agree. -/

namespace Sys2Proof

theorem opcOf_eq_extract (w : Word) : opcOf w = w.extractLsb' 24 8 := by
  apply BitVec.eq_of_toNat_eq
  simp [opcOf, Nat.shiftRight_eq_div_pow]

theorem rsvOf_eq_extract (w : Word) : rsvOf w = w.extractLsb' 8 16 := by
  apply BitVec.eq_of_toNat_eq
  simp [rsvOf, Nat.shiftRight_eq_div_pow]

theorem a8Of_eq_extract (w : Word) : a8Of w = w.extractLsb' 0 8 := by
  apply BitVec.eq_of_toNat_eq
  simp [a8Of]

theorem headerWord_toNat (o a : Byte) : (headerWord o a).toNat = 0x1000000 * o.toNat + a.toNat := by
  simp only [headerWord, BitVec.toNat_ofNat]
  omega

@[simp] theorem opcOf_headerWord (o a : Byte) : opcOf (headerWord o a) = o := by
  apply BitVec.eq_of_toNat_eq
  simp only [opcOf, headerWord_toNat, BitVec.toNat_ofNat]
  omega

@[simp] theorem rsvOf_headerWord (o a : Byte) : rsvOf (headerWord o a) = 0 := by
  apply BitVec.eq_of_toNat_eq
  simp only [rsvOf, headerWord_toNat, BitVec.toNat_ofNat, BitVec.ofNat_eq_ofNat]
  omega

@[simp] theorem a8Of_headerWord (o a : Byte) : a8Of (headerWord o a) = a := by
  apply BitVec.eq_of_toNat_eq
  simp only [a8Of, headerWord_toNat, BitVec.toNat_ofNat]
  omega

/-- A header with a zero RSV field is the packing of its two other fields. -/
theorem headerWord_fields {w : Word} (h : rsvOf w = 0) : headerWord (opcOf w) (a8Of w) = w := by
  apply BitVec.eq_of_toNat_eq
  have hr := congrArg BitVec.toNat h
  simp only [rsvOf, opcOf, a8Of, headerWord_toNat, BitVec.toNat_ofNat, BitVec.ofNat_eq_ofNat] at hr ⊢
  omega

/-- The decoder, one word unfolded (30_encoding.md R120). -/
theorem decode_cons (w : Word) (rest : List Word) :
    decode (w :: rest) = match headerFault w with
      | some f => .error f
      | none => assemble w rest := rfl

/-- The decoder with the presenting agent, one word unfolded (30_encoding.md R120). -/
theorem decodeFor_cons (ag : Agent) (w : Word) (rest : List Word) :
    decodeFor ag (w :: rest) = match headerFault w with
      | some f => .error f
      | none => if agentOfOpcode (opcOf w) = ag then assemble w rest else .error .wrongAgent := rfl

/-- When a header passes the checks of 30_encoding.md R120 before the agent check. -/
theorem headerFault_eq_none {w : Word} :
    headerFault w = none ↔
      legalOpcode (opcOf w) = true ∧ rsvOf w = 0 ∧ (takesA8 (opcOf w) = true ∨ a8Of w = 0) := by
  by_cases h1 : legalOpcode (opcOf w) = true <;> by_cases h2 : rsvOf w = 0 <;>
    by_cases h3 : takesA8 (opcOf w) = true <;> by_cases h4 : a8Of w = 0 <;>
    simp only [headerFault, h1, h2, h3, h4, ne_eq, not_true_eq_false, not_false_eq_true, if_true, if_false,
      and_self, and_true, and_false, or_self, or_true, or_false, reduceCtorEq,
      Bool.false_eq_true]

/-- A one-word command is the encoding of its code and, where it takes one, its 8-bit operand. -/
theorem oneWordInstr_eq_some {o a : Byte} {i : Instr} (h : oneWordInstr o a = some i) :
    i.opcode = o ∧ encode i = [headerWord o (if takesA8 o then a else 0)] := by
  have hrows : ∀ r ∈ oneWordTable a,
      r.2.opcode = r.1 ∧ encode r.2 = [headerWord r.1 (if takesA8 r.1 then a else 0)] := by
    simp only [oneWordTable, List.forall_mem_cons, List.not_mem_nil, false_imp_iff, implies_true]
    exact ⟨⟨rfl, rfl⟩, ⟨rfl, rfl⟩, ⟨rfl, rfl⟩, ⟨rfl, rfl⟩, ⟨rfl, rfl⟩, ⟨rfl, rfl⟩, ⟨rfl, rfl⟩, ⟨rfl, rfl⟩,
      ⟨rfl, rfl⟩, ⟨rfl, rfl⟩, ⟨rfl, rfl⟩, ⟨rfl, rfl⟩, ⟨rfl, rfl⟩, ⟨rfl, rfl⟩, ⟨rfl, rfl⟩, ⟨rfl, rfl⟩, trivial⟩
  obtain ⟨l, r, hl, -⟩ := List.lookup_eq_some_iff.mp h
  exact hrows (o, i) (by rw [hl]; simp)

/-- Every legal code but PLAY_START's has a one-word command. -/
theorem oneWordInstr_isSome {o : Byte} (a : Byte) (h : legalOpcode o = true) (h1 : o ≠ 0x01) :
    ∃ i, oneWordInstr o a = some i := by
  have key : ∀ o : Byte, legalOpcode o = true → o ≠ 0x01 → (oneWordTable 0).any (·.1 == o) = true := by decide
  have keys : ∀ b : Byte, (oneWordTable b).any (·.1 == o) = (oneWordTable 0).any (·.1 == o) := fun _ => rfl
  have hany := key o h h1
  rw [← keys a] at hany
  cases hl : (oneWordTable a).lookup o with
  | some i => exact ⟨i, hl⟩
  | none =>
    obtain ⟨r, hr, ho⟩ := List.any_eq_true.mp hany
    exact absurd (List.lookup_eq_none_iff.mp hl r hr) (by simp_all)

/-- The header of an instruction passes the checks, and its operands are assembled back. -/
theorem assemble_oneWord {o a : Byte} {i : Instr} (rest : List Word) (h1 : o ≠ 0x01)
    (h : oneWordInstr o a = some i) : assemble (headerWord o a) rest = .ok (i, rest) := by
  simp only [assemble, opcOf_headerWord, a8Of_headerWord, if_neg h1, h]

theorem assemble_playStart (startBlock byteSize : Word) (rest : List Word) :
    assemble (headerWord 0x01 0) (startBlock :: byteSize :: rest) =
      .ok (.playStart startBlock byteSize, rest) := by
  simp only [assemble, opcOf_headerWord, if_true]

end Sys2Proof
end

