-- ==== Sys2Proof/Laws/State.lean ====
section
/-! SUPPORT. One lemma per field for each update of the state that the meanings share, true by `rfl`, so that no
later proof unfolds a record update. -/

namespace Sys2Proof.Machine

/-! ### Appending an event -/

@[simp] theorem State.log_ring (s : State) (e : Event) : (s.log e).ring = s.ring := rfl
@[simp] theorem State.log_widx (s : State) (e : Event) : (s.log e).widx = s.widx := rfl
@[simp] theorem State.log_ridx (s : State) (e : Event) : (s.log e).ridx = s.ridx := rfl
@[simp] theorem State.log_scnt (s : State) (e : Event) : (s.log e).scnt = s.scnt := rfl
@[simp] theorem State.log_target (s : State) (e : Event) : (s.log e).target = s.target := rfl
@[simp] theorem State.log_bread (s : State) (e : Event) : (s.log e).bread = s.bread := rfl
@[simp] theorem State.log_pend (s : State) (e : Event) : (s.log e).pend = s.pend := rfl
@[simp] theorem State.log_pphase (s : State) (e : Event) : (s.log e).pphase = s.pphase := rfl
@[simp] theorem State.log_rbStatus (s : State) (e : Event) : (s.log e).rbStatus = s.rbStatus := rfl
@[simp] theorem State.log_rbErr (s : State) (e : Event) : (s.log e).rbErr = s.rbErr := rfl
@[simp] theorem State.log_aout (s : State) (e : Event) : (s.log e).aout = s.aout := rfl
@[simp] theorem State.log_aoutEn (s : State) (e : Event) : (s.log e).aoutEn = s.aoutEn := rfl
@[simp] theorem State.log_thresh (s : State) (e : Event) : (s.log e).thresh = s.thresh := rfl
@[simp] theorem State.log_threshValid (s : State) (e : Event) : (s.log e).threshValid = s.threshValid := rfl
@[simp] theorem State.log_pos (s : State) (e : Event) : (s.log e).pos = s.pos := rfl
@[simp] theorem State.log_neg (s : State) (e : Event) : (s.log e).neg = s.neg := rfl
@[simp] theorem State.log_ind (s : State) (e : Event) : (s.log e).ind = s.ind := rfl
@[simp] theorem State.log_emit (s : State) (e : Event) : (s.log e).emit = s.emit := rfl
@[simp] theorem State.log_detErr (s : State) (e : Event) : (s.log e).detErr = s.detErr := rfl
@[simp] theorem State.log_pmode (s : State) (e : Event) : (s.log e).pmode = s.pmode := rfl
@[simp] theorem State.log_fault (s : State) (e : Event) : (s.log e).fault = s.fault := rfl
@[simp] theorem State.log_events (s : State) (e : Event) : (s.log e).events = e :: s.events := rfl
@[simp] theorem State.log_params (s : State) (e : Event) : (s.log e).params = s.params := rfl
@[simp] theorem State.log_ret (s : State) (e : Event) : (s.log e).ret = s.ret := rfl
@[simp] theorem State.log_hostPort (s : State) (e : Event) : (s.log e).hostPort = s.hostPort := rfl
@[simp] theorem State.log_timerPort (s : State) (e : Event) : (s.log e).timerPort = s.timerPort := rfl
@[simp] theorem State.log_turns (s : State) (e : Event) : (s.log e).turns = s.turns := rfl
@[simp] theorem State.log_storage (s : State) (e : Event) : (s.log e).storage = s.storage := rfl
@[simp] theorem State.log_adc (s : State) (e : Event) : (s.log e).adc = s.adc := rfl
@[simp] theorem State.log_bits (s : State) (e : Event) : (s.log e).bits = s.bits := rfl
@[simp] theorem State.log_draws (s : State) (e : Event) : (s.log e).draws = s.draws := rfl

/-! ### Driving the emitter -/

@[simp] theorem State.drive_ring (s : State) (b : Bool) : (s.drive b).ring = s.ring := rfl
@[simp] theorem State.drive_widx (s : State) (b : Bool) : (s.drive b).widx = s.widx := rfl
@[simp] theorem State.drive_ridx (s : State) (b : Bool) : (s.drive b).ridx = s.ridx := rfl
@[simp] theorem State.drive_scnt (s : State) (b : Bool) : (s.drive b).scnt = s.scnt := rfl
@[simp] theorem State.drive_target (s : State) (b : Bool) : (s.drive b).target = s.target := rfl
@[simp] theorem State.drive_bread (s : State) (b : Bool) : (s.drive b).bread = s.bread := rfl
@[simp] theorem State.drive_pend (s : State) (b : Bool) : (s.drive b).pend = s.pend := rfl
@[simp] theorem State.drive_pphase (s : State) (b : Bool) : (s.drive b).pphase = s.pphase := rfl
@[simp] theorem State.drive_rbStatus (s : State) (b : Bool) : (s.drive b).rbStatus = s.rbStatus := rfl
@[simp] theorem State.drive_rbErr (s : State) (b : Bool) : (s.drive b).rbErr = s.rbErr := rfl
@[simp] theorem State.drive_aout (s : State) (b : Bool) : (s.drive b).aout = s.aout := rfl
@[simp] theorem State.drive_aoutEn (s : State) (b : Bool) : (s.drive b).aoutEn = s.aoutEn := rfl
@[simp] theorem State.drive_thresh (s : State) (b : Bool) : (s.drive b).thresh = s.thresh := rfl
@[simp] theorem State.drive_threshValid (s : State) (b : Bool) : (s.drive b).threshValid = s.threshValid := rfl
@[simp] theorem State.drive_pos (s : State) (b : Bool) : (s.drive b).pos = s.pos := rfl
@[simp] theorem State.drive_neg (s : State) (b : Bool) : (s.drive b).neg = s.neg := rfl
@[simp] theorem State.drive_ind (s : State) (b : Bool) : (s.drive b).ind = s.ind := rfl
@[simp] theorem State.drive_emit (s : State) (b : Bool) : (s.drive b).emit = b := rfl
@[simp] theorem State.drive_detErr (s : State) (b : Bool) : (s.drive b).detErr = s.detErr := rfl
@[simp] theorem State.drive_pmode (s : State) (b : Bool) : (s.drive b).pmode = s.pmode := rfl
@[simp] theorem State.drive_fault (s : State) (b : Bool) : (s.drive b).fault = s.fault := rfl
@[simp] theorem State.drive_events (s : State) (b : Bool) : (s.drive b).events = .emit b :: s.events := rfl
@[simp] theorem State.drive_params (s : State) (b : Bool) : (s.drive b).params = s.params := rfl
@[simp] theorem State.drive_ret (s : State) (b : Bool) : (s.drive b).ret = s.ret := rfl
@[simp] theorem State.drive_hostPort (s : State) (b : Bool) : (s.drive b).hostPort = s.hostPort := rfl
@[simp] theorem State.drive_timerPort (s : State) (b : Bool) : (s.drive b).timerPort = s.timerPort := rfl
@[simp] theorem State.drive_turns (s : State) (b : Bool) : (s.drive b).turns = s.turns := rfl
@[simp] theorem State.drive_storage (s : State) (b : Bool) : (s.drive b).storage = s.storage := rfl
@[simp] theorem State.drive_adc (s : State) (b : Bool) : (s.drive b).adc = s.adc := rfl
@[simp] theorem State.drive_bits (s : State) (b : Bool) : (s.drive b).bits = s.bits := rfl
@[simp] theorem State.drive_draws (s : State) (b : Bool) : (s.drive b).draws = s.draws := rfl

/-! ### Disarming a purpose -/

@[simp] theorem State.disarm_ring (s : State) : (s.disarm).ring = s.ring := rfl
@[simp] theorem State.disarm_widx (s : State) : (s.disarm).widx = s.widx := rfl
@[simp] theorem State.disarm_ridx (s : State) : (s.disarm).ridx = s.ridx := rfl
@[simp] theorem State.disarm_scnt (s : State) : (s.disarm).scnt = s.scnt := rfl
@[simp] theorem State.disarm_target (s : State) : (s.disarm).target = s.target := rfl
@[simp] theorem State.disarm_bread (s : State) : (s.disarm).bread = s.bread := rfl
@[simp] theorem State.disarm_pend (s : State) : (s.disarm).pend = s.pend := rfl
@[simp] theorem State.disarm_pphase (s : State) : (s.disarm).pphase = s.pphase := rfl
@[simp] theorem State.disarm_rbStatus (s : State) : (s.disarm).rbStatus = s.rbStatus := rfl
@[simp] theorem State.disarm_rbErr (s : State) : (s.disarm).rbErr = s.rbErr := rfl
@[simp] theorem State.disarm_aout (s : State) : (s.disarm).aout = s.aout := rfl
@[simp] theorem State.disarm_aoutEn (s : State) : (s.disarm).aoutEn = s.aoutEn := rfl
@[simp] theorem State.disarm_thresh (s : State) : (s.disarm).thresh = s.thresh := rfl
@[simp] theorem State.disarm_threshValid (s : State) : (s.disarm).threshValid = s.threshValid := rfl
@[simp] theorem State.disarm_pos (s : State) : (s.disarm).pos = s.pos := rfl
@[simp] theorem State.disarm_neg (s : State) : (s.disarm).neg = s.neg := rfl
@[simp] theorem State.disarm_ind (s : State) : (s.disarm).ind = s.ind := rfl
@[simp] theorem State.disarm_emit (s : State) : (s.disarm).emit = s.emit := rfl
@[simp] theorem State.disarm_detErr (s : State) : (s.disarm).detErr = s.detErr := rfl
@[simp] theorem State.disarm_pmode (s : State) : (s.disarm).pmode = .off := rfl
@[simp] theorem State.disarm_fault (s : State) : (s.disarm).fault = s.fault := rfl
@[simp] theorem State.disarm_events (s : State) : (s.disarm).events = .timerArm .off :: s.events := rfl
@[simp] theorem State.disarm_params (s : State) : (s.disarm).params = s.params := rfl
@[simp] theorem State.disarm_ret (s : State) : (s.disarm).ret = s.ret := rfl
@[simp] theorem State.disarm_hostPort (s : State) : (s.disarm).hostPort = s.hostPort := rfl
@[simp] theorem State.disarm_timerPort (s : State) : (s.disarm).timerPort = s.timerPort := rfl
@[simp] theorem State.disarm_turns (s : State) : (s.disarm).turns = s.turns := rfl
@[simp] theorem State.disarm_storage (s : State) : (s.disarm).storage = s.storage := rfl
@[simp] theorem State.disarm_adc (s : State) : (s.disarm).adc = s.adc := rfl
@[simp] theorem State.disarm_bits (s : State) : (s.disarm).bits = s.bits := rfl
@[simp] theorem State.disarm_draws (s : State) : (s.disarm).draws = s.draws := rfl

/-! ### The teardown of a session -/

@[simp] theorem State.teardown_ring (s : State) (r : SessionStatus) : (s.teardown r).ring = s.ring := rfl
@[simp] theorem State.teardown_widx (s : State) (r : SessionStatus) : (s.teardown r).widx = s.widx := rfl
@[simp] theorem State.teardown_ridx (s : State) (r : SessionStatus) : (s.teardown r).ridx = s.ridx := rfl
@[simp] theorem State.teardown_scnt (s : State) (r : SessionStatus) : (s.teardown r).scnt = s.scnt := rfl
@[simp] theorem State.teardown_target (s : State) (r : SessionStatus) : (s.teardown r).target = s.target := rfl
@[simp] theorem State.teardown_bread (s : State) (r : SessionStatus) : (s.teardown r).bread = s.bread := rfl
@[simp] theorem State.teardown_pend (s : State) (r : SessionStatus) : (s.teardown r).pend = 0 := rfl
@[simp] theorem State.teardown_pphase (s : State) (r : SessionStatus) : (s.teardown r).pphase = .idle := rfl
@[simp] theorem State.teardown_rbStatus (s : State) (r : SessionStatus) : (s.teardown r).rbStatus = r := rfl
@[simp] theorem State.teardown_rbErr (s : State) (r : SessionStatus) : (s.teardown r).rbErr = s.rbErr := rfl
@[simp] theorem State.teardown_aout (s : State) (r : SessionStatus) : (s.teardown r).aout = s.aout := rfl
@[simp] theorem State.teardown_aoutEn (s : State) (r : SessionStatus) : (s.teardown r).aoutEn = false := rfl
@[simp] theorem State.teardown_thresh (s : State) (r : SessionStatus) : (s.teardown r).thresh = s.thresh := rfl
@[simp] theorem State.teardown_threshValid (s : State) (r : SessionStatus) : (s.teardown r).threshValid = s.threshValid := rfl
@[simp] theorem State.teardown_pos (s : State) (r : SessionStatus) : (s.teardown r).pos = s.pos := rfl
@[simp] theorem State.teardown_neg (s : State) (r : SessionStatus) : (s.teardown r).neg = s.neg := rfl
@[simp] theorem State.teardown_ind (s : State) (r : SessionStatus) : (s.teardown r).ind = s.ind := rfl
@[simp] theorem State.teardown_emit (s : State) (r : SessionStatus) : (s.teardown r).emit = s.emit := rfl
@[simp] theorem State.teardown_detErr (s : State) (r : SessionStatus) : (s.teardown r).detErr = s.detErr := rfl
@[simp] theorem State.teardown_pmode (s : State) (r : SessionStatus) : (s.teardown r).pmode = .off := rfl
@[simp] theorem State.teardown_fault (s : State) (r : SessionStatus) : (s.teardown r).fault = s.fault := rfl
@[simp] theorem State.teardown_events (s : State) (r : SessionStatus) : (s.teardown r).events = .audioEnable false :: .timerArm .off :: s.events := rfl
@[simp] theorem State.teardown_params (s : State) (r : SessionStatus) : (s.teardown r).params = s.params := rfl
@[simp] theorem State.teardown_ret (s : State) (r : SessionStatus) : (s.teardown r).ret = s.ret := rfl
@[simp] theorem State.teardown_hostPort (s : State) (r : SessionStatus) : (s.teardown r).hostPort = s.hostPort := rfl
@[simp] theorem State.teardown_timerPort (s : State) (r : SessionStatus) : (s.teardown r).timerPort = s.timerPort := rfl
@[simp] theorem State.teardown_turns (s : State) (r : SessionStatus) : (s.teardown r).turns = s.turns := rfl
@[simp] theorem State.teardown_storage (s : State) (r : SessionStatus) : (s.teardown r).storage = s.storage := rfl
@[simp] theorem State.teardown_adc (s : State) (r : SessionStatus) : (s.teardown r).adc = s.adc := rfl
@[simp] theorem State.teardown_bits (s : State) (r : SessionStatus) : (s.teardown r).bits = s.bits := rfl
@[simp] theorem State.teardown_draws (s : State) (r : SessionStatus) : (s.teardown r).draws = s.draws := rfl

/-! ### Recording a fault -/

@[simp] theorem State.raise_ring (s : State) (ag : Agent) (o : Byte) (c : BlockFault) : (s.raise ag o c).ring = s.ring := rfl
@[simp] theorem State.raise_widx (s : State) (ag : Agent) (o : Byte) (c : BlockFault) : (s.raise ag o c).widx = s.widx := rfl
@[simp] theorem State.raise_ridx (s : State) (ag : Agent) (o : Byte) (c : BlockFault) : (s.raise ag o c).ridx = s.ridx := rfl
@[simp] theorem State.raise_scnt (s : State) (ag : Agent) (o : Byte) (c : BlockFault) : (s.raise ag o c).scnt = s.scnt := rfl
@[simp] theorem State.raise_target (s : State) (ag : Agent) (o : Byte) (c : BlockFault) : (s.raise ag o c).target = s.target := rfl
@[simp] theorem State.raise_bread (s : State) (ag : Agent) (o : Byte) (c : BlockFault) : (s.raise ag o c).bread = s.bread := rfl
@[simp] theorem State.raise_pend (s : State) (ag : Agent) (o : Byte) (c : BlockFault) : (s.raise ag o c).pend = s.pend := rfl
@[simp] theorem State.raise_pphase (s : State) (ag : Agent) (o : Byte) (c : BlockFault) : (s.raise ag o c).pphase = s.pphase := rfl
@[simp] theorem State.raise_rbStatus (s : State) (ag : Agent) (o : Byte) (c : BlockFault) : (s.raise ag o c).rbStatus = s.rbStatus := rfl
@[simp] theorem State.raise_rbErr (s : State) (ag : Agent) (o : Byte) (c : BlockFault) : (s.raise ag o c).rbErr = s.rbErr := rfl
@[simp] theorem State.raise_aout (s : State) (ag : Agent) (o : Byte) (c : BlockFault) : (s.raise ag o c).aout = s.aout := rfl
@[simp] theorem State.raise_aoutEn (s : State) (ag : Agent) (o : Byte) (c : BlockFault) : (s.raise ag o c).aoutEn = s.aoutEn := rfl
@[simp] theorem State.raise_thresh (s : State) (ag : Agent) (o : Byte) (c : BlockFault) : (s.raise ag o c).thresh = s.thresh := rfl
@[simp] theorem State.raise_threshValid (s : State) (ag : Agent) (o : Byte) (c : BlockFault) : (s.raise ag o c).threshValid = s.threshValid := rfl
@[simp] theorem State.raise_pos (s : State) (ag : Agent) (o : Byte) (c : BlockFault) : (s.raise ag o c).pos = s.pos := rfl
@[simp] theorem State.raise_neg (s : State) (ag : Agent) (o : Byte) (c : BlockFault) : (s.raise ag o c).neg = s.neg := rfl
@[simp] theorem State.raise_ind (s : State) (ag : Agent) (o : Byte) (c : BlockFault) : (s.raise ag o c).ind = s.ind := rfl
@[simp] theorem State.raise_emit (s : State) (ag : Agent) (o : Byte) (c : BlockFault) : (s.raise ag o c).emit = s.emit := rfl
@[simp] theorem State.raise_detErr (s : State) (ag : Agent) (o : Byte) (c : BlockFault) : (s.raise ag o c).detErr = s.detErr := rfl
@[simp] theorem State.raise_pmode (s : State) (ag : Agent) (o : Byte) (c : BlockFault) : (s.raise ag o c).pmode = s.pmode := rfl
@[simp] theorem State.raise_fault (s : State) (ag : Agent) (o : Byte) (c : BlockFault) : (s.raise ag o c).fault = some ⟨c, o, ag⟩ := rfl
@[simp] theorem State.raise_events (s : State) (ag : Agent) (o : Byte) (c : BlockFault) : (s.raise ag o c).events = .fault c :: s.events := rfl
@[simp] theorem State.raise_params (s : State) (ag : Agent) (o : Byte) (c : BlockFault) : (s.raise ag o c).params = s.params := rfl
@[simp] theorem State.raise_ret (s : State) (ag : Agent) (o : Byte) (c : BlockFault) : (s.raise ag o c).ret = match ag with | .host => none | .timer => s.ret := rfl
@[simp] theorem State.raise_hostPort (s : State) (ag : Agent) (o : Byte) (c : BlockFault) : (s.raise ag o c).hostPort = s.hostPort := rfl
@[simp] theorem State.raise_timerPort (s : State) (ag : Agent) (o : Byte) (c : BlockFault) : (s.raise ag o c).timerPort = s.timerPort := rfl
@[simp] theorem State.raise_turns (s : State) (ag : Agent) (o : Byte) (c : BlockFault) : (s.raise ag o c).turns = s.turns := rfl
@[simp] theorem State.raise_storage (s : State) (ag : Agent) (o : Byte) (c : BlockFault) : (s.raise ag o c).storage = s.storage := rfl
@[simp] theorem State.raise_adc (s : State) (ag : Agent) (o : Byte) (c : BlockFault) : (s.raise ag o c).adc = s.adc := rfl
@[simp] theorem State.raise_bits (s : State) (ag : Agent) (o : Byte) (c : BlockFault) : (s.raise ag o c).bits = s.bits := rfl
@[simp] theorem State.raise_draws (s : State) (ag : Agent) (o : Byte) (c : BlockFault) : (s.raise ag o c).draws = s.draws := rfl

/-! ### The indicator's draw -/

@[simp] theorem State.drawInd_ring (s : State) : s.drawInd.ring = s.ring := rfl
@[simp] theorem State.drawInd_widx (s : State) : s.drawInd.widx = s.widx := rfl
@[simp] theorem State.drawInd_ridx (s : State) : s.drawInd.ridx = s.ridx := rfl
@[simp] theorem State.drawInd_scnt (s : State) : s.drawInd.scnt = s.scnt := rfl
@[simp] theorem State.drawInd_target (s : State) : s.drawInd.target = s.target := rfl
@[simp] theorem State.drawInd_bread (s : State) : s.drawInd.bread = s.bread := rfl
@[simp] theorem State.drawInd_pend (s : State) : s.drawInd.pend = s.pend := rfl
@[simp] theorem State.drawInd_pphase (s : State) : s.drawInd.pphase = s.pphase := rfl
@[simp] theorem State.drawInd_rbStatus (s : State) : s.drawInd.rbStatus = s.rbStatus := rfl
@[simp] theorem State.drawInd_rbErr (s : State) : s.drawInd.rbErr = s.rbErr := rfl
@[simp] theorem State.drawInd_aout (s : State) : s.drawInd.aout = s.aout := rfl
@[simp] theorem State.drawInd_aoutEn (s : State) : s.drawInd.aoutEn = s.aoutEn := rfl
@[simp] theorem State.drawInd_thresh (s : State) : s.drawInd.thresh = s.thresh := rfl
@[simp] theorem State.drawInd_threshValid (s : State) : s.drawInd.threshValid = s.threshValid := rfl
@[simp] theorem State.drawInd_pos (s : State) : s.drawInd.pos = s.pos := rfl
@[simp] theorem State.drawInd_neg (s : State) : s.drawInd.neg = s.neg := rfl
@[simp] theorem State.drawInd_ind (s : State) : s.drawInd.ind = Reg.put s.bit := rfl
@[simp] theorem State.drawInd_emit (s : State) : s.drawInd.emit = s.emit := rfl
@[simp] theorem State.drawInd_detErr (s : State) : s.drawInd.detErr = s.detErr := rfl
@[simp] theorem State.drawInd_pmode (s : State) : s.drawInd.pmode = s.pmode := rfl
@[simp] theorem State.drawInd_fault (s : State) : s.drawInd.fault = s.fault := rfl
@[simp] theorem State.drawInd_events (s : State) : s.drawInd.events = .ind s.bit :: s.events := rfl
@[simp] theorem State.drawInd_params (s : State) : s.drawInd.params = s.params := rfl
@[simp] theorem State.drawInd_ret (s : State) : s.drawInd.ret = s.ret := rfl
@[simp] theorem State.drawInd_hostPort (s : State) : s.drawInd.hostPort = s.hostPort := rfl
@[simp] theorem State.drawInd_timerPort (s : State) : s.drawInd.timerPort = s.timerPort := rfl
@[simp] theorem State.drawInd_turns (s : State) : s.drawInd.turns = s.turns := rfl
@[simp] theorem State.drawInd_storage (s : State) : s.drawInd.storage = s.storage := rfl
@[simp] theorem State.drawInd_adc (s : State) : s.drawInd.adc = s.adc := rfl
@[simp] theorem State.drawInd_bits (s : State) : s.drawInd.bits = s.bits.tail := rfl
@[simp] theorem State.drawInd_draws (s : State) : s.drawInd.draws = s.draws + spent s.bits := rfl

/-! ### Consuming a storage answer -/

@[simp] theorem State.answered_ring (s : State) : s.answered.ring = s.ring := rfl
@[simp] theorem State.answered_widx (s : State) : s.answered.widx = s.widx := rfl
@[simp] theorem State.answered_ridx (s : State) : s.answered.ridx = s.ridx := rfl
@[simp] theorem State.answered_scnt (s : State) : s.answered.scnt = s.scnt := rfl
@[simp] theorem State.answered_target (s : State) : s.answered.target = s.target := rfl
@[simp] theorem State.answered_bread (s : State) : s.answered.bread = s.bread := rfl
@[simp] theorem State.answered_pend (s : State) : s.answered.pend = s.pend := rfl
@[simp] theorem State.answered_pphase (s : State) : s.answered.pphase = s.pphase := rfl
@[simp] theorem State.answered_rbStatus (s : State) : s.answered.rbStatus = s.rbStatus := rfl
@[simp] theorem State.answered_rbErr (s : State) : s.answered.rbErr = s.rbErr := rfl
@[simp] theorem State.answered_aout (s : State) : s.answered.aout = s.aout := rfl
@[simp] theorem State.answered_aoutEn (s : State) : s.answered.aoutEn = s.aoutEn := rfl
@[simp] theorem State.answered_thresh (s : State) : s.answered.thresh = s.thresh := rfl
@[simp] theorem State.answered_threshValid (s : State) : s.answered.threshValid = s.threshValid := rfl
@[simp] theorem State.answered_pos (s : State) : s.answered.pos = s.pos := rfl
@[simp] theorem State.answered_neg (s : State) : s.answered.neg = s.neg := rfl
@[simp] theorem State.answered_ind (s : State) : s.answered.ind = s.ind := rfl
@[simp] theorem State.answered_emit (s : State) : s.answered.emit = s.emit := rfl
@[simp] theorem State.answered_detErr (s : State) : s.answered.detErr = s.detErr := rfl
@[simp] theorem State.answered_pmode (s : State) : s.answered.pmode = s.pmode := rfl
@[simp] theorem State.answered_fault (s : State) : s.answered.fault = s.fault := rfl
@[simp] theorem State.answered_events (s : State) : s.answered.events = s.events := rfl
@[simp] theorem State.answered_params (s : State) : s.answered.params = s.params := rfl
@[simp] theorem State.answered_ret (s : State) : s.answered.ret = s.ret := rfl
@[simp] theorem State.answered_hostPort (s : State) : s.answered.hostPort = s.hostPort := rfl
@[simp] theorem State.answered_timerPort (s : State) : s.answered.timerPort = s.timerPort := rfl
@[simp] theorem State.answered_turns (s : State) : s.answered.turns = s.turns := rfl
@[simp] theorem State.answered_storage (s : State) : s.answered.storage = s.storage.tail := rfl
@[simp] theorem State.answered_adc (s : State) : s.answered.adc = s.adc := rfl
@[simp] theorem State.answered_bits (s : State) : s.answered.bits = s.bits := rfl
@[simp] theorem State.answered_draws (s : State) : s.answered.draws = s.draws + spent s.storage := rfl

/-! ### Registers -/

@[simp] theorem Reg.put_val {α : Type} (v : α) : (Reg.put v).val = v := rfl
@[simp] theorem Reg.put_written {α : Type} (v : α) : (Reg.put v).written = true := rfl
@[simp] theorem Reg.unwritten_written {α : Type} (v : α) : (Reg.unwritten v).written = false := rfl

theorem Reg.read_of_written {α : Type} {r : Reg α} (h : r.written = true) : r.read = .ok r.val := by
  simp [Reg.read, h]

theorem Reg.read_of_unwritten {α : Type} {r : Reg α} (h : r.written = false) :
    r.read = .error .unwritten := by
  simp [Reg.read, h]

end Sys2Proof.Machine
end

