-- ==== Sys2Proof/Laws/Ops.lean ====
section
/-! SUPPORT. One lemma for each shared operation that says everything it can do: the checks, performing an
operation, the ring memory, the oracles. -/

namespace Sys2Proof.Machine

/-! ### Checks and performing -/

@[simp] theorem check_of_true {α : Type} {p : Prop} [Decidable p] (c : BlockFault) (k : Except BlockFault α)
    (h : p) : check p c k = k := if_pos h

@[simp] theorem check_of_false {α : Type} {p : Prop} [Decidable p] (c : BlockFault) (k : Except BlockFault α)
    (h : ¬ p) : check p c k = .error c := if_neg h

theorem check_eq_ok {α : Type} {p : Prop} [Decidable p] {c : BlockFault} {k : Except BlockFault α} {t : α} :
    check p c k = .ok t ↔ p ∧ k = .ok t := by
  by_cases h : p <;> simp [check, h]

theorem check_eq_error {α : Type} {p : Prop} [Decidable p] {c d : BlockFault} {k : Except BlockFault α} :
    check p c k = .error d ↔ (¬ p ∧ d = c) ∨ (p ∧ k = .error d) := by
  by_cases h : p <;> simp [check, h, eq_comm]

theorem outsideSession_eq_ok {α : Type} {s : State} {p : Prop} [Decidable p] {k : Except BlockFault α}
    {t : α} : outsideSession s p k = .ok t ↔ s.pphase = .idle ∧ p ∧ k = .ok t := by
  simp only [outsideSession, check_eq_ok]

theorem operate_ok {s t : State} {ag : Agent} {o : Byte} {k : Except BlockFault State}
    (hf : s.fault = none) (hk : k = .ok t) : operate s ag o k = .next t := by
  simp [operate, hf, hk]

theorem operate_error {s : State} {ag : Agent} {o : Byte} {c : BlockFault} {k : Except BlockFault State}
    (hf : s.fault = none) (hk : k = .error c) : operate s ag o k = .next (s.raise ag o c) := by
  simp [operate, hf, hk]

theorem operate_faulted {s : State} {ag : Agent} {o : Byte} {r : FaultRecord} {k : Except BlockFault State}
    (hf : s.fault = some r) : operate s ag o k = .fault (.runEnded r) := by
  simp [operate, hf]

/-- Everything `operate` can do when it answers a next state. -/
theorem operate_next {s t : State} {ag : Agent} {o : Byte} {k : Except BlockFault State}
    (h : operate s ag o k = .next t) :
    s.fault = none ∧ (k = .ok t ∨ ∃ c, k = .error c ∧ t = s.raise ag o c) := by
  unfold operate at h
  split at h
  · cases h
  · next hf =>
    refine ⟨hf, ?_⟩
    split at h
    · injection h with h
      exact .inl (by rw [h])
    · next c =>
      injection h with h
      exact .inr ⟨c, rfl, h.symm⟩

/-- The effect of an operation keeps a property that recording a fault keeps. -/
theorem operate_keeps {P : State → Prop} {s t : State} {ag : Agent} {o : Byte} {k : Except BlockFault State}
    (h : operate s ag o k = .next t) (herr : ∀ c, P (s.raise ag o c)) (hok : ∀ u, k = .ok u → P u) : P t := by
  obtain ⟨-, hk | ⟨c, -, rfl⟩⟩ := operate_next h
  · exact hok t hk
  · exact herr c

/-! ### Ring memory -/

theorem Memory.risingFrom_mono {lo hi : Nat} {m : Memory} (h : lo ≤ hi)
    (hm : Memory.risingFrom hi m = true) : Memory.risingFrom lo m = true := by
  cases m with
  | nil => rfl
  | cons c m =>
    simp only [Memory.risingFrom, Bool.and_eq_true, decide_eq_true_eq] at hm ⊢
    exact ⟨⟨by omega, hm.1.2⟩, hm.2⟩

theorem Memory.read_below {lo addr : Nat} {m : Memory} (hm : Memory.risingFrom lo m = true)
    (h : addr < lo) : Memory.read m addr = none := by
  induction m generalizing lo with
  | nil => rfl
  | cons c m ih =>
    simp only [Memory.risingFrom, Bool.and_eq_true, decide_eq_true_eq] at hm
    have hne : ¬ c.1 = addr := by omega
    simp only [Memory.read, if_neg hne]
    exact ih hm.2 (by omega)

theorem Memory.risingFrom_write {lo addr : Nat} {v : Byte} {m : Memory}
    (hm : Memory.risingFrom lo m = true) (hlo : lo ≤ addr) (ha : addr < 256) :
    Memory.risingFrom lo (Memory.write m addr v) = true := by
  induction m generalizing lo with
  | nil => simp [Memory.write, Memory.risingFrom, hlo, ha]
  | cons c m ih =>
    simp only [Memory.risingFrom, Bool.and_eq_true, decide_eq_true_eq] at hm
    obtain ⟨⟨h1, h2⟩, h3⟩ := hm
    unfold Memory.write
    split
    · simp only [Memory.risingFrom, Bool.and_eq_true, decide_eq_true_eq]
      exact ⟨⟨hlo, ha⟩, ⟨⟨by omega, h2⟩, h3⟩⟩
    · split
      · next h =>
        subst h
        simp only [Memory.risingFrom, Bool.and_eq_true, decide_eq_true_eq]
        exact ⟨⟨hlo, ha⟩, h3⟩
      · simp only [Memory.risingFrom, Bool.and_eq_true, decide_eq_true_eq]
        exact ⟨⟨h1, h2⟩, ih h3 (by omega)⟩

/-- A write of a ring address keeps the canonical form. -/
theorem Memory.wf_write {addr : Nat} {v : Byte} {m : Memory} (hm : m.wf = true) (ha : addr < 256) :
    (m.write addr v).wf = true :=
  Memory.risingFrom_write hm (Nat.zero_le _) ha

/-- A chunk of bytes keeps the canonical form, wherever it wraps. -/
theorem Memory.wf_writeBytes {base : Byte} {vs : List Byte} {m : Memory} (hm : m.wf = true) :
    (m.writeBytes base vs).wf = true := by
  induction vs generalizing m base with
  | nil => exact hm
  | cons v vs ih => exact ih (Memory.wf_write hm base.isLt)

/-- What a byte reads after one write. -/
theorem Memory.read_write (m : Memory) (addr a : Nat) (v : Byte) :
    (m.write addr v).read a = if addr = a then some v else m.read a := by
  induction m with
  | nil => simp [Memory.write, Memory.read]
  | cons c m ih =>
    obtain ⟨b, u⟩ := c
    by_cases h1 : addr < b
    · simp [Memory.write, Memory.read, h1]
    · by_cases h2 : b = addr
      · subst h2
        by_cases h3 : b = a <;> simp [Memory.write, Memory.read, h3]
      · by_cases h3 : b = a
        · subst h3
          simp [Memory.write, Memory.read, h1, h2, Ne.symm h2]
        · simp [Memory.write, Memory.read, h1, h2, h3, ih]

/-- What a byte reads after a chunk is written: byte `k` of the chunk at `base + k`, the old byte elsewhere.
The chunk is at most the ring. -/
theorem Memory.read_writeBytes (vs : List Byte) (m : Memory) (base a : Byte) (hlen : vs.length ≤ 256) :
    (m.writeBytes base vs).read a.toNat =
      if h : (a - base).toNat < vs.length then some vs[(a - base).toNat] else m.read a.toNat := by
  induction vs generalizing m base with
  | nil => simp [Memory.writeBytes]
  | cons v vs ih =>
    rw [Memory.writeBytes, ih _ _ (by simp at hlen; omega), Memory.read_write]
    simp only [List.length_cons] at hlen ⊢
    by_cases hz : a = base
    · subst hz
      have h1 : (a - (a + 1)).toNat = 255 := by bv_omega
      rw [dif_neg (by omega), if_pos rfl, dif_pos (by simp)]
      simp
    · have hne : ¬ base.toNat = a.toNat := fun h => hz (BitVec.eq_of_toNat_eq h).symm
      have h1 : (a - base).toNat = (a - (base + 1)).toNat + 1 := by bv_omega
      simp only [if_neg hne, h1, Nat.add_lt_add_iff_right, List.getElem_cons_succ]

/-- What any address reads after a chunk is written, as a natural number: the old byte unless it is one of the
chunk's addresses. -/
theorem Memory.read_writeBytes_of_ne (vs : List Byte) (m : Memory) (base : Byte) (a : Nat)
    (h : ∀ i, i < vs.length → a ≠ (base + BitVec.ofNat 8 i).toNat) : (m.writeBytes base vs).read a = m.read a := by
  induction vs generalizing m base with
  | nil => rfl
  | cons v vs ih =>
    have h0 : base.toNat ≠ a := fun hc => h 0 (by simp) (by simp [hc])
    rw [Memory.writeBytes, ih, Memory.read_write, if_neg h0]
    intro i hi hc
    refine h (i + 1) (by simpa using hi) ?_
    rw [hc]
    congr 1
    apply BitVec.eq_of_toNat_eq
    simp
    omega

theorem ringByte_eq_ok {s : State} {addr v : Byte} :
    ringByte s addr = .ok v ↔ s.ring.read addr.toNat = some v := by
  unfold ringByte
  split <;> simp_all

/-! ### Oracles -/

theorem spent_eq {α : Type} (l : List α) : spent l = 1 - l.length := by
  cases l <;> simp [spent]

theorem State.reading_eq (s : State) : s.reading = s.sampleAt 0 := by
  unfold State.reading State.sampleAt
  cases s.adc <;> simp

/-- Everything one ADC read does. -/
theorem State.adcRead_eq (s : State) :
    s.adcRead = (s.sampleAt 0, s.sensed 1 s.emit (s.readEvents 0 1)) := by
  simp [State.adcRead, State.reading_eq, State.sensed, State.readEvents, State.log, spent_eq]

/-- The bit a draw gives is the environment's where it has fixed one. -/
theorem State.bit_of_given {s : State} {b : Bool} {more : List Bool} (h : s.bits = b :: more) : s.bit = b := by
  simp [State.bit, h]

/-- The answer of STORAGE is the environment's where it has fixed one. -/
theorem State.answer_of_given {s : State} {r : StorageAnswer} {more : List StorageAnswer}
    (h : s.storage = r :: more) : s.answer = r := by
  simp [State.answer, h]

end Sys2Proof.Machine
end

