-- ==== Sys2Proof/Laws/Measure.lean ====
section
/-! SUPPORT. The measurement procedures in closed form: what `OVS()`, one interval, `measure()` and the threshold
search compute from the readings to come, and the whole of what they do to the state. -/

namespace Sys2Proof.Machine

/-! ### States after readings -/

@[simp] theorem State.sensed_params (s : State) (n : Nat) (e : Bool) (evs : List Event) :
    (s.sensed n e evs).params = s.params := rfl
@[simp] theorem State.sensed_emit (s : State) (n : Nat) (e : Bool) (evs : List Event) :
    (s.sensed n e evs).emit = e := rfl

theorem State.sensed_zero (s : State) : s.sensed 0 s.emit [] = s := by
  simp [State.sensed]

/-- Readings follow one another. -/
theorem State.sensed_sensed (s : State) (n m : Nat) (e f : Bool) (evs evs' : List Event) :
    (s.sensed n e evs).sensed m f evs' = s.sensed (n + m) f (evs ++ evs') := by
  simp only [State.sensed, List.drop_drop, List.length_drop, List.reverse_append, List.append_assoc]
  congr 1
  omega

theorem State.sensed_drive (s : State) (n : Nat) (e b : Bool) (evs : List Event) :
    (s.sensed n e evs).drive b = s.sensed n b (evs ++ [.emit b]) := by
  simp [State.sensed, State.drive, State.log]

/-- After `n` readings the k-th reading to come is the (n+k)-th of before. -/
@[simp] theorem State.sensed_sampleAt (s : State) (n k : Nat) (e : Bool) (evs : List Event) :
    (s.sensed n e evs).sampleAt k = s.sampleAt (n + k) := by
  simp only [State.sampleAt, State.sensed, List.getElem?_drop, List.length_drop]
  rcases h : s.adc[n + k]? with _ | v
  · have : s.adc.length ≤ n + k := List.getElem?_eq_none_iff.mp h
    simp only
    congr 2
    omega
  · rfl

theorem State.sensed_sampleAt_fun (s : State) (n : Nat) (e : Bool) (evs : List Event) :
    (s.sensed n e evs).sampleAt = fun k => s.sampleAt (n + k) :=
  funext fun _ => State.sensed_sampleAt ..

@[simp] theorem State.sensed_ovsAt (s : State) (n k : Nat) (e : Bool) (evs : List Event) :
    (s.sensed n e evs).ovsAt k = s.ovsAt (n + k) := by
  simp [State.ovsAt, Nat.add_assoc]

@[simp] theorem State.sensed_readEvents (s : State) (n k m : Nat) (e : Bool) (evs : List Event) :
    (s.sensed n e evs).readEvents k m = s.readEvents (n + k) m := by
  simp [State.readEvents, Nat.add_assoc]

@[simp] theorem State.sensed_intervalEvents (s : State) (n k : Nat) (e : Bool) (evs : List Event) :
    (s.sensed n e evs).intervalEvents k = s.intervalEvents (n + k) := by
  simp [State.intervalEvents, Nat.add_assoc]

@[simp] theorem State.sensed_measureEvents (s : State) (n k : Nat) (e : Bool) (evs : List Event) :
    (s.sensed n e evs).measureEvents k = s.measureEvents (n + k) := by
  simp [State.measureEvents, Nat.add_assoc]

@[simp] theorem State.sensed_bsumAt (s : State) (n k : Nat) (e : Bool) (evs : List Event) :
    (s.sensed n e evs).bsumAt k = s.bsumAt (n + k) := by
  simp [State.bsumAt, Nat.add_assoc]

@[simp] theorem State.sensed_dsumAt (s : State) (n k : Nat) (e : Bool) (evs : List Event) :
    (s.sensed n e evs).dsumAt k = s.dsumAt (n + k) := by
  simp [State.dsumAt, Nat.add_assoc]

@[simp] theorem State.sensed_headAt (s : State) (n k : Nat) (e : Bool) (evs : List Event) :
    (s.sensed n e evs).headAt k = s.headAt (n + k) := by
  simp [State.headAt]

@[simp] theorem State.sensed_ndAt (s : State) (n k : Nat) (e : Bool) (evs : List Event) :
    (s.sensed n e evs).ndAt k = s.ndAt (n + k) := by
  simp [State.ndAt]

/-! ### The oversampled reading -/

/-- Everything `k` raw reads do. -/
theorem adcSum_eq (k : Nat) (s : State) :
    adcSum k s = (((List.range k).map s.sampleAt).sum, s.sensed k s.emit (s.readEvents 0 k)) := by
  induction k generalizing s with
  | zero => simp [adcSum, State.readEvents, State.sensed_zero]
  | succ k ih =>
    simp only [adcSum, ih, State.adcRead_eq, State.sensed_sensed,
      State.sensed_sampleAt_fun, State.sensed_emit, State.sensed_readEvents]
    refine Prod.ext ?_ ?_
    · simp [List.range_succ_eq_map, Function.comp_def, Nat.add_comm]
    · simp [List.range_succ_eq_map, Function.comp_def, State.readEvents, Nat.add_comm]

/-- Everything `OVS()` does. -/
theorem ovs_eq (s : State) : ovs s = (s.ovsAt 0, s.sensed 16 s.emit (s.readEvents 0 16)) := by
  simp [ovs, adcSum_eq, State.ovsAt, detOvs]

/-! ### The measurement -/

theorem absDiff_eq (a b : Nat) : absDiff a b = ((a : Int) - b).natAbs := by
  simp only [absDiff]
  omega

/-- Everything one interval does. -/
theorem interval_eq (s : State) :
    interval s =
      ((s.ovsAt 0, ((s.ovsAt 16 : Int) - s.ovsAt 0).natAbs + ((s.ovsAt 16 : Int) - s.ovsAt 32).natAbs),
        s.sensed 48 false (s.intervalEvents 0)) := by
  simp only [interval, ovs_eq, State.sensed_drive, State.sensed_ovsAt, State.sensed_sensed, State.sensed_emit,
    State.sensed_readEvents, absDiff_eq, State.intervalEvents]

/-- Everything `k + 1` intervals do. -/
theorem intervals_eq (k : Nat) (s : State) :
    intervals (k + 1) s =
      ((((List.range (k + 1)).map fun i => s.ovsAt (48 * i)).sum,
        ((List.range (k + 1)).map fun i =>
          ((s.ovsAt (48 * i + 16) : Int) - s.ovsAt (48 * i)).natAbs +
            ((s.ovsAt (48 * i + 16) : Int) - s.ovsAt (48 * i + 32)).natAbs).sum),
        s.sensed (48 * (k + 1)) false ((List.range (k + 1)).flatMap fun i => s.intervalEvents (48 * i))) := by
  induction k generalizing s with
  | zero => simp [intervals, interval_eq]
  | succ k ih =>
    rw [intervals]
    simp only [ih, interval_eq, State.sensed_sensed, State.sensed_ovsAt, State.sensed_intervalEvents]
    rw [List.range_succ_eq_map (n := k + 1)]
    simp only [List.map_cons, List.map_map, List.sum_cons, List.flatMap_cons, List.flatMap_map,
      Function.comp_def, Nat.succ_eq_add_one, Nat.mul_add, Nat.mul_one, Nat.mul_zero, Nat.zero_add,
      Nat.add_comm, Nat.add_left_comm, Nat.add_assoc]

/-- Everything `measure()` does. -/
theorem measure_eq (s : State) : measure s = ((s.ndAt 0, s.headAt 0), s.afterMeasures 1) := by
  simp only [measure, detIntervals, intervals_eq, normalized, headroom, detScale]
  refine Prod.ext (Prod.ext ?_ ?_) ?_
  · simp only [State.ndAt, State.headAt, State.bsumAt, State.dsumAt, Nat.zero_add] <;>
      cases s.params.normOvf <;> rfl
  · simp [State.headAt, State.bsumAt]
  · simp [State.afterMeasures, State.measureEvents]

/-! ### Measurements in a row -/

@[simp] theorem State.afterMeasures_params (s : State) (n : Nat) : (s.afterMeasures n).params = s.params := rfl

@[simp] theorem State.afterMeasures_ndAt (s : State) (n k : Nat) :
    (s.afterMeasures n).ndAt k = s.ndAt (384 * n + k) := by
  simp [State.afterMeasures]

theorem State.afterMeasures_afterMeasures (s : State) (n m : Nat) :
    (s.afterMeasures n).afterMeasures m = s.afterMeasures (n + m) := by
  simp only [State.afterMeasures, State.sensed_sensed, State.sensed_measureEvents, List.range_add,
    List.flatMap_append, List.flatMap_map, Nat.mul_add]

/-! ### The threshold search -/

/-- What up to `k` trials from measurement number `n` on can do: no hit and `k` measurements, or the first hit
at the j-th. -/
theorem trials_cases (t k n : Nat) (s : State) :
    ((∀ i, i < k → s.ndAt (384 * (n + i)) < t) ∧
        trials t k (s.afterMeasures n) = (false, s.afterMeasures (n + k))) ∨
      (∃ j, j < k ∧ (∀ i, i < j → s.ndAt (384 * (n + i)) < t) ∧ t ≤ s.ndAt (384 * (n + j)) ∧
        trials t k (s.afterMeasures n) = (true, s.afterMeasures (n + j + 1))) := by
  induction k generalizing n with
  | zero => exact .inl ⟨by simp, by simp [trials]⟩
  | succ k ih =>
    unfold trials
    simp only [measure_eq, State.afterMeasures_ndAt, State.afterMeasures_afterMeasures, Nat.add_zero]
    by_cases h : t ≤ s.ndAt (384 * n)
    · exact .inr ⟨0, by omega, by simp, by simpa using h, by simp [h]⟩
    · simp only [if_neg h]
      rcases ih (n + 1) with ⟨hall, heq⟩ | ⟨j, hj, hall, hit, heq⟩
      · refine .inl ⟨fun i hi => ?_, by rw [heq]; congr 2; omega⟩
        rcases i with _ | i
        · simpa using h
        · have := hall i (by omega)
          rwa [show n + (i + 1) = n + 1 + i by omega]
      · refine .inr ⟨j + 1, by omega, fun i hi => ?_, ?_, by rw [heq]; congr 2; omega⟩
        · rcases i with _ | i
          · simpa using h
          · have := hall i (by omega)
            rwa [show n + (i + 1) = n + 1 + i by omega]
        · rwa [show n + (j + 1) = n + 1 + j by omega]

/-- What a finished search writes (42_detector.md R188). -/
def searchWrites (s : State) : Option Nat → State
  | none => { s with detErr := 6, ret := some 0 }
  | some t => { s with thresh := BitVec.ofNat 16 t, threshValid := true, ret := some 1 }

/-- The search loop ends as the relation `Search` says, with as many measurements. -/
theorem calLoop_search (k t n : Nat) (s : State) (hk : s.params.calMax ≤ t + k) :
    ∃ result m, Search (fun j => s.ndAt (384 * j)) s.params.calMax t n result m ∧
      calLoop k t (s.afterMeasures n) = searchWrites (s.afterMeasures m) result := by
  induction k generalizing t n with
  | zero => exact ⟨none, n, .bound hk, rfl⟩
  | succ k ih =>
    unfold calLoop
    by_cases hb : (s.afterMeasures n).params.calMax ≤ t
    · exact ⟨none, n, .bound hb, if_pos hb⟩
    · have hlt : t < s.params.calMax := by simpa using hb
      rw [if_neg hb]
      simp only [calTrials]
      rcases trials_cases t 32 n s with ⟨hall, heq⟩ | ⟨j, hj, hall, hit, heq⟩
      · exact ⟨some (t + 5), n + 32, .done hlt hall, by simp [heq, calDone, calStep, searchWrites]⟩
      · obtain ⟨result, m, hs, hl⟩ := ih (t + 5) (n + j + 1) (by omega)
        exact ⟨result, m, .hit hlt hj hall hit hs, by simp [heq, calStep, hl]⟩

/-- Everything the threshold search does. -/
theorem calibrate_search (s : State) :
    ∃ result m, Search (fun j => s.ndAt (384 * j)) s.params.calMax (s.ndAt 0) 1 result m ∧
      calibrate s = searchWrites (s.afterMeasures m) result := by
  simp only [calibrate, measure_eq]
  exact calLoop_search _ _ 1 s (by omega)

end Sys2Proof.Machine
end

