-- ==== Sys2Proof/Laws/Exec.lean ====
section
/-! SUPPORT. What each operation can do, said once: an operation that answers a next state has taken a fault, or
its preconditions hold and the state is its effect's. Later proofs cite these and do not unfold a meaning. -/

namespace Sys2Proof.Machine

/-- The operation of agent `ag` and code `opc` took some fault in `s`. -/
def State.Raised (s : State) (ag : Agent) (opc : Byte) (t : State) : Prop := ∃ c, t = s.raise ag opc c

theorem exec_fault_none {i : Instr} {s t : State} (h : exec i s = .next t) : s.fault = none := by
  cases i
  case rbWrite =>
    simp only [exec, execRbWrite] at h
    split at h <;> exact (operate_next h).1
  all_goals exact (operate_next h).1

theorem execPlayStart_next {sb bs : Word} {s t : State} (h : execPlayStart sb bs s = .next t) :
    s.Raised .host 0x01 t ∨ (s.pphase = .idle ∧ s.pmode = .off ∧ t = openSession sb bs s) := by
  obtain ⟨-, hk | ⟨c, -, ht⟩⟩ := operate_next h
  · rw [outsideSession_eq_ok] at hk
    exact .inr ⟨hk.1, hk.2.1, by injection hk.2.2 with e; exact e.symm⟩
  · exact .inl ⟨c, ht⟩

theorem execRbPoll_next {s t : State} (h : execRbPoll s = .next t) :
    s.Raised .host 0x02 t ∨ (s.pphase = .refill ∧ t = pollEffect s) := by
  obtain ⟨-, hk | ⟨c, -, ht⟩⟩ := operate_next h
  · simp only [check_eq_ok] at hk
    exact .inr ⟨hk.1, by injection hk.2.2 with e; exact e.symm⟩
  · exact .inl ⟨c, ht⟩

/-- What receiving an answer can do: tear down on an error, else store the bytes. -/
theorem receive_eq_ok {s t : State} {r : StorageAnswer} (h : receive s r = .ok t) :
    (∃ code, r = .err code ∧ t = { { s with rbErr := code }.teardown .aborted with ret := none }) ∨
      ∃ n bytes, r = .ok n bytes ∧ (n = 0 ∨ s.widx.written = true) ∧
        t = { s with
          ring := s.ring.writeBytes s.widx.val bytes
          pend := BitVec.ofNat 6 n
          pphase := .commit
          ret := none } := by
  cases r with
  | err code => exact .inl ⟨code, rfl, by injection h with e; exact e.symm⟩
  | ok n bytes =>
    simp only [receive, check_eq_ok] at h
    exact .inr ⟨n, bytes, rfl, h.1, by injection h.2 with e; exact e.symm⟩

theorem execRbWrite_next {s t : State} (h : execRbWrite s = .next t) :
    (s.pphase ≠ .fetch ∧ s.Raised .host 0x03 t) ∨
      (s.pphase = .fetch ∧ (s.answered.Raised .host 0x03 t ∨
        (answerOk s.answer = true ∧ receive s.answered s.answer = .ok t))) := by
  unfold execRbWrite at h
  split at h
  · next hp =>
    obtain ⟨-, hk | ⟨c, -, ht⟩⟩ := operate_next h
    · rw [check_eq_ok] at hk
      exact .inr ⟨hp, .inr hk⟩
    · exact .inr ⟨hp, .inl ⟨c, ht⟩⟩
  · next hp =>
    obtain ⟨-, hk | ⟨c, -, ht⟩⟩ := operate_next h
    · cases hk
    · exact .inl ⟨hp, c, ht⟩

theorem execRbCommit_next {s t : State} (h : execRbCommit s = .next t) :
    s.Raised .host 0x04 t ∨
      (s.pphase = .commit ∧ s.level.toNat + s.pend.toNat ≤ 255 ∧ t = publish s) := by
  obtain ⟨-, hk | ⟨c, -, ht⟩⟩ := operate_next h
  · simp only [check_eq_ok] at hk
    exact .inr ⟨hk.1, hk.2.2.1, by injection hk.2.2.2 with e; exact e.symm⟩
  · exact .inl ⟨c, ht⟩

theorem execRbDrain_next {s t : State} (h : execRbDrain s = .next t) :
    s.Raised .host 0x05 t ∨
      (s.pphase = .drain ∧ ((s.empty = false ∧ t = s) ∨ (s.empty = true ∧ t = endSession s))) := by
  obtain ⟨-, hk | ⟨c, -, ht⟩⟩ := operate_next h
  · simp only [check_eq_ok] at hk
    refine .inr ⟨hk.1, ?_⟩
    have hd : drainHolds s = !s.empty := by simp only [drainHolds, hk.1, hk.2.1, decide_true, Bool.true_and]
    have e : (if drainHolds s then s else endSession s) = t := by injection hk.2.2
    cases he : s.empty
    · exact .inl ⟨rfl, by rw [hd, he] at e; exact e.symm⟩
    · exact .inr ⟨rfl, by rw [hd, he] at e; exact e.symm⟩
  · exact .inl ⟨c, ht⟩

theorem nextSample_eq_ok {s : State} {v : Byte} :
    nextSample s = .ok v ↔
      (s.scnt.val < s.target.val ∧ s.ring.read s.ridx.val.toNat = some v) ∨
        (¬ s.scnt.val < s.target.val ∧ v = s.params.midscale) := by
  unfold nextSample
  split
  · next h => simp only [ringByte_eq_ok, h, true_and, not_true_eq_false, false_and, or_false]
  · next h =>
    simp only [h, false_and, not_false_eq_true, true_and, false_or, Except.ok.injEq]
    exact eq_comm

theorem execAudioTick_next {s t : State} (h : execAudioTick s = .next t) :
    s.Raised .timer 0x10 t ∨
      (s.pmode = .audio ∧ ((s.empty = true ∧ t = s) ∨
        (s.empty = false ∧ ∃ v, nextSample s = .ok v ∧ t = playSample s v))) := by
  obtain ⟨-, hk | ⟨c, -, ht⟩⟩ := operate_next h
  · simp only [check_eq_ok] at hk
    refine .inr ⟨hk.1, ?_⟩
    have e := hk.2.2
    cases he : s.empty <;> simp [he, check_eq_ok] at e
    · refine .inr ⟨rfl, ?_⟩
      cases hv : nextSample s with
      | error c => simp [hv, Except.map] at e
      | ok v => exact ⟨v, rfl, by simpa [hv, Except.map, eq_comm] using e.2⟩
    · exact .inl ⟨rfl, e.symm⟩
  · exact .inl ⟨c, ht⟩

theorem execDetMeasure_next {s t : State} (h : execDetMeasure s = .next t) :
    s.Raised .host 0x20 t ∨ (s.pphase = .idle ∧ (s.pmode = .off ∨ s.pmode = .blink) ∧
      ∃ r, t = { s.afterMeasures 1 with ret := r }) := by
  obtain ⟨-, hk | ⟨c, -, ht⟩⟩ := operate_next h
  · rw [outsideSession_eq_ok, measure_eq] at hk
    exact .inr ⟨hk.1, hk.2.1, _, by injection hk.2.2 with e; exact e.symm⟩
  · exact .inl ⟨c, ht⟩

theorem execDetGetAvg_next {s t : State} (h : execDetGetAvg s = .next t) :
    s.Raised .host 0x21 t ∨ (s.pphase = .idle ∧ (s.pmode = .off ∨ s.pmode = .blink) ∧
      t = { s.sensed 16 s.emit (s.readEvents 0 16) with ret := some (BitVec.ofNat 32 (s.ovsAt 0)) }) := by
  obtain ⟨-, hk | ⟨c, -, ht⟩⟩ := operate_next h
  · rw [outsideSession_eq_ok, ovs_eq] at hk
    exact .inr ⟨hk.1, hk.2.1, by injection hk.2.2 with e; exact e.symm⟩
  · exact .inl ⟨c, ht⟩

theorem execDetStart_next {s t : State} (h : execDetStart s = .next t) :
    s.Raised .host 0x22 t ∨ (s.pphase = .idle ∧ s.pmode = .off ∧ t = startDetect s) := by
  obtain ⟨-, hk | ⟨c, -, ht⟩⟩ := operate_next h
  · rw [outsideSession_eq_ok] at hk
    exact .inr ⟨hk.1, hk.2.1, by injection hk.2.2 with e; exact e.symm⟩
  · exact .inl ⟨c, ht⟩

theorem execDetStop_next {s t : State} (h : execDetStop s = .next t) :
    s.Raised .host 0x23 t ∨
      (s.pphase = .idle ∧ (s.pmode = .detect ∨ s.pmode = .off) ∧ t = stopDetect s) := by
  obtain ⟨-, hk | ⟨c, -, ht⟩⟩ := operate_next h
  · rw [outsideSession_eq_ok] at hk
    exact .inr ⟨hk.1, hk.2.1, by injection hk.2.2 with e; exact e.symm⟩
  · exact .inl ⟨c, ht⟩

theorem execDetTick_next {s t : State} (h : execDetTick s = .next t) :
    s.Raised .timer 0x24 t ∨
      (s.pmode = .detect ∧ s.threshValid = true ∧ s.pos.written = true ∧ s.neg.written = true ∧
        t = debounce (s.afterMeasures 1) (s.ndAt 0)) := by
  obtain ⟨-, hk | ⟨c, -, ht⟩⟩ := operate_next h
  · simp only [check_eq_ok, measure_eq] at hk
    exact .inr ⟨hk.1, hk.2.1.1, hk.2.1.2.1, hk.2.1.2.2, by injection hk.2.2 with e; exact e.symm⟩
  · exact .inl ⟨c, ht⟩

theorem execDetIsAlarm_next {s t : State} (h : execDetIsAlarm s = .next t) :
    s.Raised .host 0x25 t ∨
      (s.pphase = .idle ∧ s.pos.written = true ∧ t = { s with ret := some (bitWord s.alarm) }) := by
  obtain ⟨-, hk | ⟨c, -, ht⟩⟩ := operate_next h
  · simp only [check_eq_ok] at hk
    exact .inr ⟨hk.1, hk.2.1, by injection hk.2.2 with e; exact e.symm⟩
  · exact .inl ⟨c, ht⟩

theorem execDetCalibrate_next {s t : State} (h : execDetCalibrate s = .next t) :
    s.Raised .host 0x26 t ∨ (s.pphase = .idle ∧ s.pmode = .off ∧
      ∃ m result, t = searchWrites (s.afterMeasures m) result) := by
  obtain ⟨-, hk | ⟨c, -, ht⟩⟩ := operate_next h
  · rw [outsideSession_eq_ok] at hk
    obtain ⟨result, m, -, hc⟩ := calibrate_search s
    exact .inr ⟨hk.1, hk.2.1, m, result, by injection hk.2.2 with e; rw [← e, hc]⟩
  · exact .inl ⟨c, ht⟩

theorem execTmrArmBlink_next {s t : State} (h : execTmrArmBlink s = .next t) :
    s.Raised .host 0x30 t ∨ (s.pphase = .idle ∧ s.pmode = .off ∧ t = armBlink s) := by
  obtain ⟨-, hk | ⟨c, -, ht⟩⟩ := operate_next h
  · rw [outsideSession_eq_ok] at hk
    exact .inr ⟨hk.1, hk.2.1, by injection hk.2.2 with e; exact e.symm⟩
  · exact .inl ⟨c, ht⟩

theorem execTmrDisarm_next {s t : State} (h : execTmrDisarm s = .next t) :
    s.Raised .host 0x31 t ∨
      (s.pphase = .idle ∧ (s.pmode = .blink ∨ s.pmode = .off) ∧ t = disarmBlink s) := by
  obtain ⟨-, hk | ⟨c, -, ht⟩⟩ := operate_next h
  · rw [outsideSession_eq_ok] at hk
    exact .inr ⟨hk.1, hk.2.1, by injection hk.2.2 with e; exact e.symm⟩
  · exact .inl ⟨c, ht⟩

theorem execReadReg_next {n : Byte} {s t : State} (h : execReadReg n s = .next t) :
    s.Raised .host 0x40 t ∨ ∃ v, registerValue s n = .ok v ∧ t = { s with ret := some v } := by
  obtain ⟨-, hk | ⟨c, -, ht⟩⟩ := operate_next h
  · cases hv : registerValue s n with
    | error c => simp [hv, Except.map] at hk
    | ok v => exact .inr ⟨v, rfl, by simpa [hv, Except.map, eq_comm] using hk⟩
  · exact .inl ⟨c, ht⟩

theorem execReadMem_next {a : Byte} {s t : State} (h : execReadMem a s = .next t) :
    s.Raised .host 0x41 t ∨
      ∃ v, s.ring.read a.toNat = some v ∧ t = { s with ret := some (v.setWidth 32) } := by
  obtain ⟨-, hk | ⟨c, -, ht⟩⟩ := operate_next h
  · cases hv : ringByte s a with
    | error c => simp [hv, Except.map] at hk
    | ok v => exact .inr ⟨v, ringByte_eq_ok.mp hv, by simpa [hv, Except.map, eq_comm] using hk⟩
  · exact .inl ⟨c, ht⟩

/-! ### The effects, case by case -/

/-- What an operation does when it takes no fault: its preconditions and the state it leaves. -/
def Effect (s t : State) : Instr → Prop
  | .playStart sb bs => s.pphase = .idle ∧ s.pmode = .off ∧ t = openSession sb bs s
  | .rbPoll => s.pphase = .refill ∧ t = pollEffect s
  | .rbWrite => s.pphase = .fetch ∧ answerOk s.answer = true ∧ receive s.answered s.answer = .ok t
  | .rbCommit => s.pphase = .commit ∧ s.level.toNat + s.pend.toNat ≤ 255 ∧ t = publish s
  | .rbDrain => s.pphase = .drain ∧ ((s.empty = false ∧ t = s) ∨ (s.empty = true ∧ t = endSession s))
  | .audioTick => s.pmode = .audio ∧ ((s.empty = true ∧ t = s) ∨
      (s.empty = false ∧ ∃ v, nextSample s = .ok v ∧ t = playSample s v))
  | .detMeasure => s.pphase = .idle ∧ (s.pmode = .off ∨ s.pmode = .blink) ∧
      ∃ r, t = { s.afterMeasures 1 with ret := r }
  | .detGetAvg => s.pphase = .idle ∧ (s.pmode = .off ∨ s.pmode = .blink) ∧
      t = { s.sensed 16 s.emit (s.readEvents 0 16) with ret := some (BitVec.ofNat 32 (s.ovsAt 0)) }
  | .detStart => s.pphase = .idle ∧ s.pmode = .off ∧ t = startDetect s
  | .detStop => s.pphase = .idle ∧ (s.pmode = .detect ∨ s.pmode = .off) ∧ t = stopDetect s
  | .detTick => s.pmode = .detect ∧ s.threshValid = true ∧ s.pos.written = true ∧ s.neg.written = true ∧
      t = debounce (s.afterMeasures 1) (s.ndAt 0)
  | .detIsAlarm => s.pphase = .idle ∧ s.pos.written = true ∧ t = { s with ret := some (bitWord s.alarm) }
  | .detCalibrate => s.pphase = .idle ∧ s.pmode = .off ∧
      ∃ m result, t = searchWrites (s.afterMeasures m) result
  | .tmrArmBlink => s.pphase = .idle ∧ s.pmode = .off ∧ t = armBlink s
  | .tmrDisarm => s.pphase = .idle ∧ (s.pmode = .blink ∨ s.pmode = .off) ∧ t = disarmBlink s
  | .readReg n => ∃ v, registerValue s n = .ok v ∧ t = { s with ret := some v }
  | .readMem a => ∃ v, s.ring.read a.toNat = some v ∧ t = { s with ret := some (v.setWidth 32) }

/-- Everything `exec` can do when it answers a next state: a fault in `s`, a fault of an RB_WRITE that has
consumed its answer, or the operation's effect. -/
theorem exec_next {i : Instr} {s t : State} (h : exec i s = .next t) :
    s.Raised i.agent i.opcode t ∨
      (i = .rbWrite ∧ s.pphase = .fetch ∧ s.answered.Raised .host 0x03 t) ∨ Effect s t i := by
  cases i
  case rbWrite =>
    rcases execRbWrite_next h with h | ⟨h, h2 | h2⟩
    · exact .inl h.2
    · exact .inr (.inl ⟨rfl, h, h2⟩)
    · exact .inr (.inr ⟨h, h2⟩)
  case playStart => exact (execPlayStart_next h).imp id .inr
  case rbPoll => exact (execRbPoll_next h).imp id .inr
  case rbCommit => exact (execRbCommit_next h).imp id .inr
  case rbDrain => exact (execRbDrain_next h).imp id .inr
  case audioTick => exact (execAudioTick_next h).imp id .inr
  case detMeasure => exact (execDetMeasure_next h).imp id .inr
  case detGetAvg => exact (execDetGetAvg_next h).imp id .inr
  case detStart => exact (execDetStart_next h).imp id .inr
  case detStop => exact (execDetStop_next h).imp id .inr
  case detTick => exact (execDetTick_next h).imp id .inr
  case detIsAlarm => exact (execDetIsAlarm_next h).imp id .inr
  case detCalibrate => exact (execDetCalibrate_next h).imp id .inr
  case tmrArmBlink => exact (execTmrArmBlink_next h).imp id .inr
  case tmrDisarm => exact (execTmrDisarm_next h).imp id .inr
  case readReg => exact (execReadReg_next h).imp id .inr
  case readMem => exact (execReadMem_next h).imp id .inr

/-- What a poll can do: start the drain, request a chunk, or nothing but return the level. -/
theorem pollEffect_cases (s : State) :
    (s.target.val ≤ s.bread.val ∧ pollEffect s = { s with
        pphase := .drain, ret := some (s.level.setWidth 32), events := .storageStop :: s.events }) ∨
      (¬ s.target.val ≤ s.bread.val ∧ s.level.toNat ≤ 192 ∧ pollEffect s = { s with
        pphase := .fetch
        ret := some (s.level.setWidth 32)
        events := .storageRead 32 s.widx.val :: s.events }) ∨
      (¬ s.target.val ≤ s.bread.val ∧ 192 < s.level.toNat ∧
        pollEffect s = { s with ret := some (s.level.setWidth 32) }) := by
  unfold pollEffect
  split
  · next h => exact .inl ⟨h, rfl⟩
  · next h =>
    split
    · next hl => exact .inr (.inl ⟨h, of_decide_eq_true hl, rfl⟩)
    · next hl => exact .inr (.inr ⟨h, Nat.lt_of_not_le fun hc => hl (decide_eq_true hc), rfl⟩)

/-- What a debounce step can do: a positive tick, the second negative tick in a row, or a first one. -/
theorem debounce_cases (s : State) (nd : Nat) :
    (s.thresh.toNat ≤ nd ∧ debounce s nd = { s with
        pos := Reg.put (streakUp s.params s.pos.val)
        neg := Reg.put 0
        ind := Reg.put true
        events := .ind true :: s.events }) ∨
      (nd < s.thresh.toNat ∧ (s.neg.val + 1).toNat = 2 ∧
        debounce s nd = { s with pos := Reg.put 0, neg := Reg.put 0 }.drawInd) ∨
      (nd < s.thresh.toNat ∧ (s.neg.val + 1).toNat ≠ 2 ∧
        debounce s nd = { s with neg := Reg.put (s.neg.val + 1) }.drawInd) := by
  unfold debounce
  split
  · next h => exact .inl ⟨h, rfl⟩
  · next h =>
    split
    · next hn => exact .inr (.inl ⟨Nat.lt_of_not_le h, hn, rfl⟩)
    · next hn => exact .inr (.inr ⟨Nat.lt_of_not_le h, hn, rfl⟩)

theorem stopDetect_eq (s : State) :
    stopDetect s = if s.pmode = .detect then { s.disarm.drawInd with ret := none }
      else { s.drawInd with ret := none } := by
  unfold stopDetect
  split <;> rfl

theorem disarmBlink_eq (s : State) :
    disarmBlink s = if s.pmode = .blink then { s.disarm.drawInd with ret := none }
      else { s with ret := none } := by
  unfold disarmBlink
  split <;> rfl

/-! ### The level -/

/-- LEVEL as a number (10_state.md R54). -/
theorem level_toNat (w r : Byte) : (w - r).toNat = (w.toNat + 256 - r.toNat) % 256 := by
  simp only [BitVec.toNat_sub]
  congr 1
  omega

/-- A commit that passes the overrun check adds PEND to the level (20_memory.md R99). -/
theorem level_publish {s : State} (h : s.level.toNat + s.pend.toNat ≤ 255) :
    (publish s).level.toNat = s.level.toNat + s.pend.toNat := by
  have hp := s.pend.isLt
  simp only [State.level, publish, Reg.put, level_toNat] at h ⊢
  simp
  omega

/-- A tick that plays takes one byte from the level. -/
theorem level_playSample {s : State} {v : Byte} (h : s.empty = false) :
    (playSample s v).level.toNat + 1 = s.level.toNat := by
  have hne : s.ridx.val ≠ s.widx.val := by simpa [State.empty] using h
  show (s.widx.val - (s.ridx.val + 1)).toNat + 1 = (s.widx.val - s.ridx.val).toNat
  bv_omega

end Sys2Proof.Machine
end

