-- ==== Sys2Proof/Laws/PerInstr.lean ====
section
/-! SUPPORT. Statements made once per operation of spec/opcode_table.json. -/

namespace Sys2Proof.Laws

/-- The encoder writes a well-formed command (30_encoding.md R110 to R118), with the code and the agent of the
instruction in its header (R116). -/
def EncodeWf.Statement (i : Instr) : Prop :=
  Command.wf (encode i) = true ∧ ∃ w rest, encode i = w :: rest ∧ opcOf w = i.opcode ∧
    agentOfOpcode (opcOf w) = i.agent

theorem EncodeWf.header (o a : Byte) : (headerWord o a).extractLsb' 24 8 = o ∧
    (headerWord o a).extractLsb' 8 16 = 0 ∧ (headerWord o a).extractLsb' 0 8 = a :=
  ⟨opcOf_eq_extract _ ▸ opcOf_headerWord o a, rsvOf_eq_extract _ ▸ rsvOf_headerWord o a,
    a8Of_eq_extract _ ▸ a8Of_headerWord o a⟩

/-- The statement for a one-word command with a legal code and an operand it may have. -/
theorem EncodeWf.oneWord (i : Instr) (a : Byte) (he : encode i = [headerWord i.opcode a])
    (hc : Command.codes.contains i.opcode = true) (h1 : i.opcode ≠ 0x01)
    (ha : i.opcode = 0x40 ∨ i.opcode = 0x41 ∨ a = 0) : EncodeWf.Statement i := by
  obtain ⟨ho, hr, h8⟩ := EncodeWf.header i.opcode a
  refine ⟨?_, headerWord i.opcode a, [], he, opcOf_headerWord .., by simp [Instr.agent]⟩
  rw [he]
  simp only [Command.wf, Command.opcodeOk, Command.reservedOk, Command.operandOk, Command.lengthOk, ho, hr, h8,
    hc, if_neg h1]
  rcases ha with h | h | h <;> simp [h]

theorem EncodeWf.playStart (startBlock byteSize : Word) :
    EncodeWf.Statement (.playStart startBlock byteSize) :=
  ⟨rfl, _, _, rfl, rfl, rfl⟩
theorem EncodeWf.rbPoll : EncodeWf.Statement .rbPoll :=
  EncodeWf.oneWord _ 0 rfl (by decide) (by decide) (by decide)
theorem EncodeWf.rbWrite : EncodeWf.Statement .rbWrite :=
  EncodeWf.oneWord _ 0 rfl (by decide) (by decide) (by decide)
theorem EncodeWf.rbCommit : EncodeWf.Statement .rbCommit :=
  EncodeWf.oneWord _ 0 rfl (by decide) (by decide) (by decide)
theorem EncodeWf.rbDrain : EncodeWf.Statement .rbDrain :=
  EncodeWf.oneWord _ 0 rfl (by decide) (by decide) (by decide)
theorem EncodeWf.audioTick : EncodeWf.Statement .audioTick :=
  EncodeWf.oneWord _ 0 rfl (by decide) (by decide) (by decide)
theorem EncodeWf.detMeasure : EncodeWf.Statement .detMeasure :=
  EncodeWf.oneWord _ 0 rfl (by decide) (by decide) (by decide)
theorem EncodeWf.detGetAvg : EncodeWf.Statement .detGetAvg :=
  EncodeWf.oneWord _ 0 rfl (by decide) (by decide) (by decide)
theorem EncodeWf.detStart : EncodeWf.Statement .detStart :=
  EncodeWf.oneWord _ 0 rfl (by decide) (by decide) (by decide)
theorem EncodeWf.detStop : EncodeWf.Statement .detStop :=
  EncodeWf.oneWord _ 0 rfl (by decide) (by decide) (by decide)
theorem EncodeWf.detTick : EncodeWf.Statement .detTick :=
  EncodeWf.oneWord _ 0 rfl (by decide) (by decide) (by decide)
theorem EncodeWf.detIsAlarm : EncodeWf.Statement .detIsAlarm :=
  EncodeWf.oneWord _ 0 rfl (by decide) (by decide) (by decide)
theorem EncodeWf.detCalibrate : EncodeWf.Statement .detCalibrate :=
  EncodeWf.oneWord _ 0 rfl (by decide) (by decide) (by decide)
theorem EncodeWf.tmrArmBlink : EncodeWf.Statement .tmrArmBlink :=
  EncodeWf.oneWord _ 0 rfl (by decide) (by decide) (by decide)
theorem EncodeWf.tmrDisarm : EncodeWf.Statement .tmrDisarm :=
  EncodeWf.oneWord _ 0 rfl (by decide) (by decide) (by decide)
theorem EncodeWf.readReg (regno : Byte) : EncodeWf.Statement (.readReg regno) :=
  EncodeWf.oneWord _ regno rfl (show Command.codes.contains (0x40 : Byte) = true by decide)
    (show (0x40 : Byte) ≠ 0x01 by decide) (.inl rfl)
theorem EncodeWf.readMem (addr : Byte) : EncodeWf.Statement (.readMem addr) :=
  EncodeWf.oneWord _ addr rfl (show Command.codes.contains (0x41 : Byte) = true by decide)
    (show (0x41 : Byte) ≠ 0x01 by decide) (.inr (.inl rfl))

end Sys2Proof.Laws
end

