-- ==== Sys2Proof/Laws/Step.lean ====
section
/-! SUPPORT. What one step of the block can do, said once: the run is over and nothing happens, or an agent is chosen, and then nothing happens, the
indicator takes a draw, a decode fault is recorded, or an operation is performed; words may leave a port. -/

namespace Sys2Proof.Machine

/-- A command that decodes is whole, and taking its words from a port leaves the words after it. -/
theorem decodeFor_ok {ag : Agent} {ws rest : List Word} {i : Instr} (h : decodeFor ag ws = .ok (i, rest)) :
    commandPresent ws = true ∧ dropCommand ws = rest := by
  cases ws with
  | nil => cases h
  | cons w ws =>
    rw [decodeFor_cons] at h
    split at h
    · cases h
    · split at h
      · unfold assemble at h
        split at h
        · next h1 =>
          split at h
          · injection h with h
            injection h with _ h
            have hw : commandWords w = 3 := if_pos h1
            simp [commandPresent, dropCommand, hw, h]
          · cases h
        · next h1 =>
          split at h
          · injection h with h
            injection h with _ h
            have hw : commandWords w = 1 := if_neg h1
            simp [commandPresent, dropCommand, hw, h]
          · cases h
      · cases h

/-- An operation does not touch the ports or the choice of agents. -/
theorem exec_ports {i : Instr} {s t : State} (h : exec i s = .next t) :
    t.hostPort = s.hostPort ∧ t.timerPort = s.timerPort ∧ t.turns = s.turns := by
  rcases exec_next h with ⟨c, rfl⟩ | ⟨-, -, c, rfl⟩ | h
  · exact ⟨rfl, rfl, rfl⟩
  · exact ⟨rfl, rfl, rfl⟩
  · cases i <;> simp only [Effect] at h
    case playStart => obtain ⟨-, -, rfl⟩ := h; exact ⟨rfl, rfl, rfl⟩
    case rbPoll =>
      obtain ⟨-, rfl⟩ := h
      rcases pollEffect_cases s with ⟨-, h⟩ | ⟨-, -, h⟩ | ⟨-, -, h⟩ <;> rw [h] <;> exact ⟨rfl, rfl, rfl⟩
    case rbWrite =>
      obtain ⟨-, -, h⟩ := h
      rcases receive_eq_ok h with ⟨c, -, rfl⟩ | ⟨n, b, -, -, rfl⟩ <;> exact ⟨rfl, rfl, rfl⟩
    case rbCommit => obtain ⟨-, -, rfl⟩ := h; exact ⟨rfl, rfl, rfl⟩
    case rbDrain => obtain ⟨-, ⟨-, rfl⟩ | ⟨-, rfl⟩⟩ := h <;> exact ⟨rfl, rfl, rfl⟩
    case audioTick => obtain ⟨-, ⟨-, rfl⟩ | ⟨-, v, -, rfl⟩⟩ := h <;> exact ⟨rfl, rfl, rfl⟩
    case detMeasure => obtain ⟨-, -, r, rfl⟩ := h; exact ⟨rfl, rfl, rfl⟩
    case detGetAvg => obtain ⟨-, -, rfl⟩ := h; exact ⟨rfl, rfl, rfl⟩
    case detStart => obtain ⟨-, -, rfl⟩ := h; exact ⟨rfl, rfl, rfl⟩
    case detStop => obtain ⟨-, -, rfl⟩ := h; rw [stopDetect_eq]; split <;> exact ⟨rfl, rfl, rfl⟩
    case detTick =>
      obtain ⟨-, -, -, -, rfl⟩ := h
      rcases debounce_cases (s.afterMeasures 1) (s.ndAt 0) with ⟨-, h⟩ | ⟨-, -, h⟩ | ⟨-, -, h⟩ <;> rw [h] <;>
        exact ⟨rfl, rfl, rfl⟩
    case detIsAlarm => obtain ⟨-, -, rfl⟩ := h; exact ⟨rfl, rfl, rfl⟩
    case detCalibrate => obtain ⟨-, -, m, r, rfl⟩ := h; cases r <;> exact ⟨rfl, rfl, rfl⟩
    case tmrArmBlink => obtain ⟨-, -, rfl⟩ := h; exact ⟨rfl, rfl, rfl⟩
    case tmrDisarm => obtain ⟨-, -, rfl⟩ := h; rw [disarmBlink_eq]; split <;> exact ⟨rfl, rfl, rfl⟩
    case readReg => obtain ⟨v, -, rfl⟩ := h; exact ⟨rfl, rfl, rfl⟩
    case readMem => obtain ⟨v, -, rfl⟩ := h; exact ⟨rfl, rfl, rfl⟩

/-- Choosing the agent changes only the inputs `turns` and `draws`. -/
theorem chooseAgent_snd (s : State) :
    ∃ turns draws, (chooseAgent s).2 = { s with turns := turns, draws := draws } := by
  unfold chooseAgent
  split
  · exact ⟨_, s.draws, rfl⟩
  · split
    · split <;> exact ⟨s.turns, _, rfl⟩
    · split <;> exact ⟨s.turns, s.draws, rfl⟩

/-- When a run is over (70_reset_and_hazards.md R322). -/
theorem State.runOver_iff (s : State) :
    s.runOver = true ↔ commandPresent s.hostPort = false ∧ commandPresent s.timerPort = false ∧
      s.pphase = .idle ∧ (s.pmode = .off ∨ s.pmode = .blink) := by
  simp [State.runOver, and_assoc]

/-- A run is not over while the HOST has a command. -/
theorem State.runOver_of_host {s : State} (h : commandPresent s.hostPort = true) : s.runOver = false := by
  simp [State.runOver, h]

/-- A run is not over while a command is presented on the TIMER port. -/
theorem State.runOver_of_timer {s : State} (h : commandPresent s.timerPort = true) : s.runOver = false := by
  simp [State.runOver, h]

/-- A run that is over stays in its last state. -/
theorem step_runOver {s : State} (hf : s.fault = none) (h : s.runOver = true) : step s = .next s := by
  simp [step, nextTurn, hf, h]

/-- In a run that goes on the chosen agent has its turn. -/
theorem step_turn {s : State} (hf : s.fault = none) (h : s.runOver = false) :
    step s = agentTurn (chooseAgent s).1 (chooseAgent s).2 := by
  simp [step, nextTurn, hf, h]

/-- The environment's choice of agent, where one is given. -/
theorem step_given {s : State} {ag : Agent} {more : List Agent} (hf : s.fault = none) (h : s.runOver = false)
    (ht : s.turns = ag :: more) : step s = agentTurn ag { s with turns := more } := by
  simp [step_turn hf h, chooseAgent, ht]

/-- Performing the words at a port: nothing, a decode fault, or an operation. -/
theorem perform_next {ag : Agent} {ws : List Word} {s u : State} (h : perform ag ws s = .next u) :
    u = s ∨ (∃ o c, u = s.raise ag o c) ∨ ∃ i, exec i s = .next u := by
  unfold perform at h
  split at h
  · exact .inr (.inr ⟨_, h⟩)
  · split at h
    · injection h with h
      exact .inr (.inl ⟨_, _, h.symm⟩)
    · injection h with h
      exact .inl h.symm

theorem afterNext_next {o : Host.Outcome State Fault Refusal} {f : State → State} {t : State}
    (h : afterNext o f = .next t) : ∃ u, o = .next u ∧ t = f u := by
  cases o with
  | next u => exact ⟨u, rfl, by injection h with h; exact h.symm⟩
  | fault r => cases h
  | refused r => cases h

/-- What happens in a turn: `u` is the state it leaves, before words leave a port. -/
def State.Acted (s u : State) : Prop :=
  u = s ∨ (s.pmode = .blink ∧ u = s.drawInd) ∨ (∃ ag o c, u = s.raise ag o c) ∨ ∃ i, exec i s = .next u

theorem agentTurn_next {ag : Agent} {s t : State} (h : agentTurn ag s = .next t) :
    ∃ u hostPort timerPort, s.Acted u ∧ t = { u with hostPort := hostPort, timerPort := timerPort } := by
  have acted : ∀ {ag ws u}, perform ag ws s = .next u → s.Acted u := fun hp => by
    rcases perform_next hp with h | ⟨o, c, h⟩ | h
    · exact .inl h
    · exact .inr (.inr (.inl ⟨_, o, c, h⟩))
    · exact .inr (.inr (.inr h))
  cases ag with
  | host =>
    simp only [agentTurn, hostTurn] at h
    split at h
    · obtain ⟨u, hu, rfl⟩ := afterNext_next h
      split
      · exact ⟨u, u.hostPort, u.timerPort, acted hu, rfl⟩
      · exact ⟨u, dropCommand u.hostPort, u.timerPort, acted hu, rfl⟩
    · injection h with h
      exact ⟨s, s.hostPort, s.timerPort, .inl rfl, h.symm⟩
  | timer =>
    simp only [agentTurn, timerTurn] at h
    split at h
    · obtain ⟨u, hu, rfl⟩ := afterNext_next h
      exact ⟨u, u.hostPort, dropCommand u.timerPort, acted hu, rfl⟩
    · split at h
      · exact ⟨t, t.hostPort, t.timerPort, acted h, rfl⟩
      · exact ⟨t, t.hostPort, t.timerPort, acted h, rfl⟩
      · next hb =>
        injection h with h
        exact ⟨s.drawInd, s.hostPort, s.timerPort, .inr (.inl ⟨hb, rfl⟩), h.symm⟩
      · injection h with h
        exact ⟨s, s.hostPort, s.timerPort, .inl rfl, h.symm⟩

/-- Everything one step can do when it answers a next state. -/
theorem step_next {s t : State} (h : step s = .next t) :
    s.fault = none ∧ ∃ turns draws u hostPort timerPort,
      State.Acted { s with turns := turns, draws := draws } u ∧
        t = { u with hostPort := hostPort, timerPort := timerPort } := by
  unfold step nextTurn at h
  split at h
  · cases h
  next hf =>
  split at h
  · injection h with h
    exact ⟨hf, s.turns, s.draws, s, s.hostPort, s.timerPort, .inl rfl, h.symm⟩
  · obtain ⟨turns, draws, hc⟩ := chooseAgent_snd s
    rw [hc] at h
    obtain ⟨u, hp, tp, hu, ht⟩ := agentTurn_next h
    exact ⟨hf, turns, draws, u, hp, tp, hu, ht⟩

/-- A property that does not depend on the ports and inputs is kept by every step, if each operation, a fault
and the blink's draw keep it. -/
theorem step_keeps {P : State → Prop} {s t : State} (h : step s = .next t) (hs : P s)
    (hports : ∀ u hp tp, P u → P { u with hostPort := hp, timerPort := tp })
    (hinputs : ∀ turns draws, P s → P { s with turns := turns, draws := draws })
    (hraise : ∀ u ag o c, P u → P (u.raise ag o c))
    (hblink : ∀ u, u.pmode = .blink → P u → P u.drawInd)
    (hexec : ∀ i u v, P u → exec i u = .next v → P v) : P t := by
  obtain ⟨-, turns, draws, u, hp, tp, hu, rfl⟩ := step_next h
  have h0 := hinputs turns draws hs
  apply hports
  rcases hu with rfl | ⟨hb, rfl⟩ | ⟨ag, o, c, rfl⟩ | ⟨i, hi⟩
  · exact h0
  · exact hblink _ hb h0
  · exact hraise _ _ _ _ h0
  · exact hexec i _ _ h0 hi

end Sys2Proof.Machine
end

