-- ==== Sys2Proof/Tests/Slice0.lean ====
section
/-! SUPPORT. Tests of the model against the vectors of spec/95_test_vectors.md, and one theorem for each statement
with hypotheses that shows states and operands meeting them, clause by clause. The ids (A1, M2, ...) are those of
that file. -/

namespace Sys2Proof.Tests

open Sys2Proof.Machine

/-! ### Words: the checks of WellFormed, and words written out from 30_encoding.md R116 -/

theorem test_opcode_check_refuses : Command.opcodeOk 0x06000000 = false ∧ Command.wf [0x06000000] = false := by
  decide
theorem test_reserved_check_refuses : Command.reservedOk 0x02000100 = false ∧ Command.wf [0x02000100] = false := by
  decide
theorem test_operand_check_refuses : Command.operandOk 0x02000001 = false ∧ Command.wf [0x02000001] = false := by
  decide
theorem test_length_check_refuses : Command.lengthOk 0x01000000 [7] = false ∧ Command.wf [0x01000000, 7] = false ∧
    Command.wf [0x02000000, 0] = false ∧ Command.wf [] = false := by decide
theorem test_wf_accepts : Command.wf [0x01000000, 7, 40] = true ∧ Command.wf [0x410000F1] = true := by decide

theorem test_decode_play_start : decode [0x01000000, 0x00000007, 0x00000028] = .ok (.playStart 7 40, []) := by decide
theorem test_decode_rb_poll : decode [0x02000000] = .ok (.rbPoll, []) := by decide
theorem test_decode_rb_write : decode [0x03000000] = .ok (.rbWrite, []) := by decide
theorem test_decode_rb_commit : decode [0x04000000] = .ok (.rbCommit, []) := by decide
theorem test_decode_rb_drain : decode [0x05000000] = .ok (.rbDrain, []) := by decide
theorem test_decode_audio_tick : decode [0x10000000] = .ok (.audioTick, []) := by decide
theorem test_decode_det_measure : decode [0x20000000] = .ok (.detMeasure, []) := by decide
theorem test_decode_det_get_avg : decode [0x21000000] = .ok (.detGetAvg, []) := by decide
theorem test_decode_det_start : decode [0x22000000] = .ok (.detStart, []) := by decide
theorem test_decode_det_stop : decode [0x23000000] = .ok (.detStop, []) := by decide
theorem test_decode_det_tick : decode [0x24000000] = .ok (.detTick, []) := by decide
theorem test_decode_det_is_alarm : decode [0x25000000] = .ok (.detIsAlarm, []) := by decide
theorem test_decode_det_calibrate : decode [0x26000000] = .ok (.detCalibrate, []) := by decide
theorem test_decode_tmr_arm_blink : decode [0x30000000] = .ok (.tmrArmBlink, []) := by decide
theorem test_decode_tmr_disarm : decode [0x31000000] = .ok (.tmrDisarm, []) := by decide
theorem test_decode_read_reg : decode [0x40000010] = .ok (.readReg 0x10, []) := by decide
theorem test_decode_read_mem : decode [0x410000F1] = .ok (.readMem 0xF1, []) := by decide

/-- X1 to X8. -/
theorem test_decode_rejects :
    decodeFor .host [0x00000000] = .error .illegalOpcode ∧ decodeFor .host [0x06000000] = .error .illegalOpcode ∧
    decodeFor .host [0xFF000001] = .error .illegalOpcode ∧ decodeFor .host [0x02000100] = .error .reservedNonzero ∧
    decodeFor .host [0x02000001] = .error .reservedNonzero ∧
    decodeFor .host [0x40000100] = .error .reservedNonzero ∧ decodeFor .host [0x10000000] = .error .wrongAgent ∧
    decodeFor .timer [0x02000000] = .error .wrongAgent := by decide

/-- A command whose operand words are not there yet is no command (log 18). -/
theorem test_decode_incomplete : decode [0x01000000, 7] = .error .incomplete := by decide

theorem test_table_word : decodeTableWord 32 0x01000000 = some (.playStart 0 0) ∧
    decodeTableWord 96 0x000000280000000701000000 = some (.playStart 7 40) ∧
    decodeTableWord 32 0x41000005 = some (.readMem 5) ∧ decodeTableWord 32 0x02000100 = none := by decide

/-! ### States to test on -/

/-- The parameters of 95_test_vectors.md. -/
def params : Params := ⟨1023, 100, 0x80, .wrap, .saturate⟩

/-- Power-on with those parameters. -/
def base : State := { State.reset with params := params }

/-- The next state, where there is one. -/
def nextOf (o : Host.Outcome State Fault Refusal) : Option State :=
  match o with
  | .next t => some t
  | .fault _ => none
  | .refused _ => none

/-- The state an operation leaves. -/
def after (i : Instr) (s : State) : State := (nextOf (exec i s)).getD s

theorem exec_after {i : Instr} {s : State} (h : (nextOf (exec i s)).isSome = true) :
    exec i s = .next (after i s) := by
  unfold after
  cases he : exec i s <;> simp_all [nextOf]

/-- The code of the fault recorded by an operation. -/
def faultOf (i : Instr) (s : State) : Option BlockFault := (after i s).fault.map (·.code)

/-- A state inside a session, at the given indices, counter, target and total. -/
def session (phase : Phase) (w r : Byte) (cnt target total : Word) : State :=
  { base with
    widx := ⟨w, true⟩, ridx := ⟨r, true⟩, scnt := ⟨cnt, true⟩, target := ⟨target, true⟩, bread := ⟨total, true⟩
    pphase := phase, pmode := .audio, aoutEn := true, rbStatus := .active }

/-- The ADC script of one measurement, `s1`, `s2`, `s3` in every interval. -/
def script (s1 s2 s3 : Nat) : List Nat :=
  (List.replicate 8 (List.replicate 16 s1 ++ List.replicate 16 s2 ++ List.replicate 16 s3)).flatten

/-- The script S(d) of 95_test_vectors.md, whose normalized difference is d. -/
def sd (d : Nat) : List Nat := script 23 (23 + d) 23

/-- Detection armed, with a threshold of 50. -/
def detecting (p n : Byte) (adc : List Nat) (bits : List Bool) : State :=
  { base with
    pos := ⟨p, true⟩, neg := ⟨n, true⟩, thresh := 50, threshValid := true, pmode := .detect, adc := adc
    bits := bits }

/-! ### The audio stream -/

/-- A1. -/
theorem test_play_start : (after (.playStart 7 40) base).target = ⟨40, true⟩ ∧
    (after (.playStart 7 40) base).pphase = .refill ∧ (after (.playStart 7 40) base).pmode = .audio ∧
    (after (.playStart 7 40) base).history =
      [.audioEnable true, .timerArm .audio, .storageStartMulti 7] := by decide
/-- A2 and A22. -/
theorem test_play_start_faults : faultOf (.playStart 7 40) (session .refill 0 0 0 40 0) = some .sessionActive ∧
    faultOf (.playStart 1 1) (detecting 0 0 [] []) = some .pmodeBusy := by decide

/-- A3 and A4. -/
theorem test_rb_poll_low_water :
    (after .rbPoll (session .refill 192 0 0 1000 192)).pphase = .fetch ∧
    (after .rbPoll (session .refill 192 0 0 1000 192)).events = [.storageRead 32 192] ∧
    after .rbPoll (session .refill 193 0 0 1000 193) =
      { session .refill 193 0 0 1000 193 with ret := some 193 } := by decide
/-- A5 and A6. -/
theorem test_rb_poll_target :
    (after .rbPoll (session .refill 64 10 10 40 64)).pphase = .drain ∧
    (after .rbPoll (session .refill 64 10 10 40 64)).ret = some 54 ∧
    (after .rbPoll (session .refill 10 10 10 40 40)).events = [.storageStop] := by decide

/-- A chunk of bytes b[i] = 0xB0 + i, as in C12. -/
def chunk : List Byte := (List.range 32).map fun i => BitVec.ofNat 8 (0xB0 + i)

/-- A7. -/
theorem test_rb_write_wraps :
    (after .rbWrite { session .fetch 240 230 0 100 96 with storage := [.ok 32 chunk] }).ring =
      ((List.range 16).map fun i => (i, BitVec.ofNat 8 (0xC0 + i))) ++
        (List.range 16).map fun i => (240 + i, BitVec.ofNat 8 (0xB0 + i)) := by decide
/-- A9 and A10. -/
theorem test_rb_write_errors :
    (after .rbWrite { session .fetch 0 0 0 100 0 with storage := [.err 1] }).rbErr = 1 ∧
    (after .rbWrite { session .fetch 0 0 0 100 0 with storage := [.err 1] }).events =
      [.audioEnable false, .timerArm .off] ∧
    faultOf .rbWrite { session .fetch 0 0 0 100 0 with storage := [.err 6] } = some .badResponse ∧
    faultOf .rbWrite { session .fetch 0 0 0 100 0 with storage := [.err 0] } = some .badResponse ∧
    faultOf .rbWrite { session .fetch 0 0 0 100 0 with storage := [.ok 33 []] } = some .badResponse := by decide

/-- A11. -/
theorem test_rb_commit_wraps :
    (after .rbCommit { session .commit 240 230 86 1000 96 with pend := 32 }).widx = ⟨16, true⟩ ∧
    (after .rbCommit { session .commit 240 230 86 1000 96 with pend := 32 }).bread = ⟨128, true⟩ ∧
    (after .rbCommit { session .commit 240 230 86 1000 96 with pend := 32 }).level = 42 := by decide
/-- A12 and A13. -/
theorem test_rb_commit_overrun :
    (after .rbCommit { session .commit 223 0 0 1000 223 with pend := 32 }).widx = ⟨255, true⟩ ∧
    faultOf .rbCommit { session .commit 230 0 0 1000 230 with pend := 32 } = some .overrun := by decide

/-- A18. -/
theorem test_rb_drain_holds : after .rbDrain (session .drain 64 10 10 40 64) = session .drain 64 10 10 40 64 := by
  decide
/-- A19. -/
theorem test_rb_drain_done :
    (after .rbDrain (session .drain 64 64 64 40 64)).rbStatus = .done ∧
    (after .rbDrain (session .drain 64 64 64 40 64)).pmode = .off ∧
    (after .rbDrain (session .drain 64 64 64 40 64)).events = [.audioEnable false, .timerArm .off] := by decide

/-- A15 and A14. -/
theorem test_audio_tick_data :
    (after .audioTick { session .refill 32 9 9 40 32 with ring := [(9, 0x09)] }).aout = ⟨0x09, true⟩ ∧
    (after .audioTick { session .refill 32 9 9 40 32 with ring := [(9, 0x09)] }).ridx = ⟨10, true⟩ ∧
    after .audioTick (session .refill 17 17 17 40 17) = session .refill 17 17 17 40 17 := by decide
/-- A16 and A17. -/
theorem test_audio_tick_silence :
    (after .audioTick (session .drain 64 40 40 40 64)).events = [.sample 0x80] ∧
    (after .audioTick { session .refill 5 255 100 300 106 with ring := [(255, 0x7F)] }).ridx = ⟨0, true⟩ := by decide

/-! ### The detector -/

/-- M0: fifteen readings 0 and one 15 average to 0, the readings 0 to 15 to 7. -/
theorem test_ovs_floor : (ovs { base with adc := List.range 16 }).1 = 7 ∧
    (ovs { base with adc := List.replicate 15 0 ++ [15] }).1 = 0 := by decide +kernel

/-- M2, and M7, above 1000. -/
theorem test_det_measure : (after .detMeasure { base with adc := sd 50 }).ret = some 0x03E80032 ∧
    (after .detMeasure { base with adc := script 1000 900 1000 }).ret = some 0x001710FB := by decide +kernel
/-- M4: saturated, and truncated. -/
theorem test_normalized_overflow : normalized params 8176 16352 = 65535 ∧
    normalized { params with normOvf := .truncate } 8176 16352 = 38960 := by decide

/-- G1. -/
theorem test_det_get_avg : (after .detGetAvg { base with adc := List.replicate 16 500 }).ret = some 500 ∧
    (after .detGetAvg { base with adc := List.replicate 16 500 }).events.length = 16 := by decide +kernel
/-- G2 and G3. -/
theorem test_det_measurements_fault : faultOf .detGetAvg (detecting 0 0 [] []) = some .pmodeBusy ∧
    faultOf .detMeasure (session .refill 0 0 0 40 0) = some .sessionActive := by decide

/-- S1. -/
theorem test_det_start :
    (after .detStart { base with pos := ⟨5, true⟩, neg := ⟨1, true⟩, bits := [true] }).pos = ⟨0, true⟩ ∧
    (after .detStart { base with pos := ⟨5, true⟩, neg := ⟨1, true⟩, bits := [true] }).history =
      [.ind true, .timerArm .detect] := by decide
/-- S3 and S6. -/
theorem test_det_stop :
    (after .detStop (detecting 5 0 [] [false])).pos = ⟨5, true⟩ ∧
    (after .detStop (detecting 5 0 [] [false])).history = [.timerArm .off, .ind false] ∧
    faultOf .detStop { base with pmode := .blink } = some .pmodeBusy := by decide

/-- T4. -/
theorem test_det_tick_positive :
    (after .detTick (detecting 3 1 (sd 60) [])).pos = ⟨4, true⟩ ∧
    (after .detTick (detecting 3 1 (sd 60) [])).neg = ⟨0, true⟩ := by decide +kernel
/-- T3. -/
theorem test_det_tick_negative :
    (after .detTick (detecting 3 1 (sd 10) [false])).pos = ⟨0, true⟩ ∧
    (after .detTick (detecting 3 1 (sd 10) [false])).ind = ⟨false, true⟩ := by decide +kernel

/-- Q1 and Q2. -/
theorem test_det_is_alarm : (after .detIsAlarm (detecting 4 0 [] [])).ret = some 0 ∧
    (after .detIsAlarm (detecting 5 0 [] [])).ret = some 1 := by decide
/-- Q3 and Q4. -/
theorem test_det_is_alarm_faults : faultOf .detIsAlarm base = some .unwritten ∧
    faultOf .detIsAlarm (session .drain 64 10 10 40 64) = some .sessionActive := by decide

/-- K4: one measurement at the bound fails. -/
theorem test_det_calibrate_bound :
    (after .detCalibrate { base with adc := sd 100 }).detErr = 6 ∧
    (after .detCalibrate { base with adc := sd 100 }).ret = some 0 := by decide +kernel
/-- K3: 99 hits 98, and 103 is past the bound. -/
theorem test_det_calibrate_hit :
    (after .detCalibrate { base with adc := sd 98 ++ sd 99 }).detErr = 6 := by decide +kernel

/-! ### The timer purpose and the diagnostic reads -/

/-- C1 and C2. -/
theorem test_tmr_arm_blink : (after .tmrArmBlink base).pmode = .blink ∧
    (after .tmrArmBlink base).events = [.timerArm .blink] ∧
    faultOf .tmrArmBlink (detecting 0 0 [] []) = some .pmodeBusy := by decide
/-- C3, C4 and C5. -/
theorem test_tmr_disarm :
    (after .tmrDisarm { base with pmode := .blink, bits := [true] }).history = [.timerArm .off, .ind true] ∧
    after .tmrDisarm base = base ∧ faultOf .tmrDisarm (detecting 0 0 [] []) = some .pmodeBusy := by decide

/-- C6 to C10. -/
theorem test_read_reg : (after (.readReg 0x07) base).ret = some 0 ∧ (after (.readReg 0x11) base).ret = some 0 ∧
    faultOf (.readReg 0x10) base = some .unwritten ∧ faultOf (.readReg 0x02) base = some .unwritten ∧
    faultOf (.readReg 0x0F) base = some .badRegno ∧ faultOf (.readReg 0x18) base = some .badRegno := by decide
/-- C11, and a byte of a chunk. -/
theorem test_read_mem : faultOf (.readMem 0) base = some .unwritten ∧
    (after (.readMem 0xF1) { base with ring := [(0xF1, 0xB1)] }).ret = some 0xB1 := by decide

/-! ### The step -/

/-- A word presented from outside is performed by the next step, as the first after reset. -/
theorem test_step_first :
    (nextOf (step (State.reset.withFetchWord 96 0x000000280000000701000000))).map (·.target) = some ⟨40, true⟩ ∧
    (nextOf (step (State.reset.withFetchWord 32 0x30000000))).map (·.pmode) = some .blink := by decide
/-- X7 and X8 through the ports, and P5's illegal word. -/
theorem test_step_decode_faults :
    (nextOf (step (base.present .host [0x10000000]))).map (·.fault) =
      some (some ⟨.wrongAgent, 0x10, .host⟩) ∧
    (nextOf (step (base.present .timer [0x02000000]))).map (·.fault) =
      some (some ⟨.wrongAgent, 0x02, .timer⟩) ∧
    (nextOf (step (base.present .host [0xFF000000]))).map (·.fault) =
      some (some ⟨.illegalOpcode, 0xFF, .host⟩) := by decide
/-- While a command waits, a turn of the TIMER draws the indicator; with none left the run is over and neither the
indicator nor the turn changes (70_reset_and_hazards.md R322). -/
theorem test_step_blink :
    (nextOf (step { base with pmode := .blink, bits := [true], hostPort := [0x31000000], turns := [.timer] })).map
      (fun t => (t.ind, t.events)) = some (⟨true, true⟩, [.ind true]) ∧
    nextOf (step { base with pmode := .blink, bits := [true], turns := [.timer] }) =
      some { base with pmode := .blink, bits := [true], turns := [.timer] } := by decide
/-- X9: a detection tick while AUDIO is armed. -/
theorem test_step_wrong_tick :
    (nextOf (step ((session .refill 0 0 0 40 0).present .timer [0x24000000]))).map (·.fault) =
      some (some ⟨.wrongAgent, 0x24, .timer⟩) := by decide

/-! ### Witnesses: states and operands that meet the hypotheses of each statement

`witness_X` is about `Obligations.X`; `base.fault`, and that of every state built on it, is none. -/

theorem witness_fault_none : base.fault = none ∧ (session .fetch 0 0 0 40 0).fault = none ∧
    (detecting 0 0 [] []).fault = none := by decide

theorem witness_EncodeOfDecode : decode [0x01000000, 7, 40, 9] = .ok (.playStart 7 40, [9]) := by decide

/-- The ends of each range of illegal codes, and the legal codes beside them. -/
theorem witness_IllegalOpcodeFaults :
    ([(0x00000000 : Word), 0x06000000, 0x0F000000, 0x11000000, 0x1F000000, 0x27000000, 0x2F000000, 0x32000000,
      0x3F000000, 0x42000000, 0xFF000001].map fun w => w.extractLsb' 24 8) =
        [0x00, 0x06, 0x0F, 0x11, 0x1F, 0x27, 0x2F, 0x32, 0x3F, 0x42, 0xFF] ∧
    (∀ o ∈ [(0x00 : Byte), 0x06, 0x0F, 0x11, 0x1F, 0x27, 0x2F, 0x32, 0x3F, 0x42, 0xFF],
      Command.codes.contains o = false) ∧
    ∀ o ∈ [(0x01 : Byte), 0x05, 0x10, 0x20, 0x26, 0x30, 0x31, 0x40, 0x41], Command.codes.contains o = true := by
  decide

/-- RSV's lowest and highest bit, and A8's, on operations without an operand. -/
theorem witness_ReservedBitsFault :
    ([(0x02000100 : Word), 0x40800000, 0x02000001, 0x31000080].map fun w =>
      (w.extractLsb' 24 8, w.extractLsb' 8 16, w.extractLsb' 0 8)) =
        [((0x02 : Byte), (0x0001 : BitVec 16), (0x00 : Byte)), (0x40, 0x8000, 0x00), (0x02, 0, 0x01),
          (0x31, 0, 0x80)] ∧
    ∀ o ∈ [(0x02 : Byte), 0x40, 0x31], Command.codes.contains o = true := by decide

theorem witness_WrongPortFaults :
    (if Instr.audioTick = .audioTick ∨ Instr.audioTick = .detTick then Agent.host = .host else Agent.host = .timer) ∧
    (if Instr.rbPoll = .audioTick ∨ Instr.rbPoll = .detTick then Agent.timer = .host else Agent.timer = .timer) := by
  decide

/-- A command that completes, and a drain that holds; a header that waits for its operands in a run that is over
and in one that is not. -/
theorem witness_StepRunsDecodedHostCommand :
    (base.present .host [0x30000000]).turns = .host :: [] ∧
    decodeFor .host (base.present .host [0x30000000]).hostPort = .ok (.tmrArmBlink, []) ∧
    ((session .drain 64 10 10 40 64).present .host [0x05000000]).turns = .host :: [] ∧
    decodeFor .host ((session .drain 64 10 10 40 64).present .host [0x05000000]).hostPort = .ok (.rbDrain, []) ∧
    commandPresent (base.present .host [0x01000000, 7]).hostPort = false ∧
    (base.present .host [0x01000000, 7]).runOver = true ∧
    ((detecting 0 0 [] []).present .host [0x01000000, 7]).runOver = false := by decide

theorem witness_StepRunsDecodedTimerCommand :
    ((session .drain 64 10 10 40 64).present .timer [0x10000000]).turns = .timer :: [] ∧
    decodeFor .timer ((session .drain 64 10 10 40 64).present .timer [0x10000000]).timerPort =
      .ok (.audioTick, []) := by decide

/-- One state for each purpose, the HOST with a command. -/
theorem witness_StepRunsTimerTick :
    ∀ m ∈ [Purpose.audio, .detect, .blink, .off],
      ({ base with pmode := m, turns := [.timer], hostPort := [0x40000007] } : State).turns = .timer :: [] ∧
      commandPresent base.timerPort = false ∧ commandPresent [0x40000007] = true ∧
      ({ base with pmode := m, turns := [.timer] } : State).pmode = m := by decide

/-- Every purpose, with and without a command of the HOST. -/
theorem witness_StepChoosesTheReadyAgent :
    ∀ m ∈ [Purpose.audio, .detect, .blink, .off], ∀ ws ∈ [[], [(0x40000007 : Word)]],
      ({ base with pmode := m, hostPort := ws } : State).turns = [] ∧
      commandPresent ({ base with pmode := m, hostPort := ws } : State).timerPort = false ∧
      commandPresent ({ base with pmode := m, hostPort := ws } : State).hostPort = !ws.isEmpty := by decide

theorem witness_FaultEndsTheRun : (after .rbPoll base).fault = some ⟨.wrongPhase, 0x02, .host⟩ := by decide

theorem witness_PlayStartOpensASession :
    (session .refill 0 0 0 40 0).pphase ≠ .idle ∧
    (base.pphase = .idle ∧ ({ base with pmode := .blink } : State).pmode ≠ .off) ∧
    (base.pphase = .idle ∧ base.pmode = .off) := by decide

/-- Out of phase, and in phase at the total reached, at levels 192 and 193. -/
theorem witness_PollTestsTargetThenLevel :
    base.pphase ≠ .refill ∧
    ∀ s ∈ [session .refill 10 10 10 40 40, session .refill 192 0 0 1000 192, session .refill 193 0 0 1000 193],
      s.pphase = .refill ∧ s.widx.written ∧ s.ridx.written ∧ s.bread.written ∧ s.target.written := by decide

/-- Out of phase; malformed answers at each bound; an error; and chunks of 0 and 32 bytes. -/
theorem witness_WriteReceivesTheChunk :
    base.pphase ≠ .fetch ∧ (session .fetch 240 0 0 40 0).pphase = .fetch ∧
    (session .fetch 240 0 0 40 0).widx.written ∧
    ({ session .fetch 240 0 0 40 0 with storage := [.err 0] } : State).answer = .err 0 ∧
    ({ session .fetch 240 0 0 40 0 with storage := [.err 6] } : State).answer = .err 6 ∧
    ({ session .fetch 240 0 0 40 0 with storage := [.ok 33 []] } : State).answer = .ok 33 [] ∧
    ({ session .fetch 240 0 0 40 0 with storage := [.ok 1 []] } : State).answer = .ok 1 [] ∧
    ({ session .fetch 240 0 0 40 0 with storage := [.err 1] } : State).answer = .err 1 ∧
    ({ session .fetch 240 0 0 40 0 with storage := [.err 5] } : State).answer = .err 5 ∧
    ({ session .fetch 240 0 0 40 0 with storage := [.ok 0 []] } : State).answer = .ok 0 [] ∧
    ({ session .fetch 240 0 0 40 0 with storage := [.ok 32 chunk] } : State).answer = .ok 32 chunk ∧
    chunk.length = 32 := by decide

/-- Out of phase; and in phase at `LEVEL + PEND` 256 and 255. -/
theorem witness_CommitPublishesTheChunk :
    base.pphase ≠ .commit ∧
    (∀ s ∈ [({ session .commit 224 0 0 1000 224 with pend := 32 } : State),
        { session .commit 223 0 0 1000 223 with pend := 32 }],
      s.pphase = .commit ∧ s.widx.written ∧ s.ridx.written ∧ s.bread.written) ∧
    255 < (224 + 256 - 0) % 256 + 32 ∧ (223 + 256 - 0) % 256 + 32 ≤ 255 := by decide

theorem witness_DrainWaitsThenTearsDown :
    base.pphase ≠ .drain ∧
    ((session .drain 64 10 10 40 64).pphase = .drain ∧
      (session .drain 64 10 10 40 64).ridx.val ≠ (session .drain 64 10 10 40 64).widx.val) ∧
    (session .drain 64 64 64 40 64).ridx.val = (session .drain 64 64 64 40 64).widx.val := by decide

theorem witness_HeldDrainIsRetried :
    ({ session .drain 64 10 10 40 64 with hostPort := [0x05000000, 0x40000008], turns := [.host, .timer] } :
        State).hostPort = 0x05000000 :: [0x40000008] ∧
    (session .drain 64 10 10 40 64).ridx.val ≠ (session .drain 64 10 10 40 64).widx.val := by decide

/-- Not AUDIO; an empty ring; a data byte known and unknown; the sample counter at TARGET. -/
theorem witness_AudioTickPlaysOneSample :
    base.pmode ≠ .audio ∧
    ((session .refill 17 17 17 40 17).ridx.val = (session .refill 17 17 17 40 17).widx.val) ∧
    (∀ s ∈ [({ session .drain 64 39 39 40 64 with ring := [(39, 0x27)] } : State), session .drain 64 40 40 40 64],
      s.pmode = .audio ∧ s.widx.written ∧ s.ridx.written ∧ s.ridx.val ≠ s.widx.val ∧ s.scnt.written ∧
        s.target.written) ∧
    ({ session .drain 64 39 39 40 64 with ring := [(39, 0x27)] } : State).ring.read 39 = some 0x27 ∧
    (session .drain 64 39 39 40 64).ring.read 39 = none := by decide

theorem witness_UnwrittenReadsFault :
    (∀ p ∈ [Phase.refill, .commit, .drain],
      ({ base with pphase := p } : State).pphase = p ∧ ¬ ({ base with pphase := p } : State).widx.written) ∧
    (({ base with pphase := .fetch, storage := [.ok 32 chunk] } : State).answer = .ok 32 chunk ∧
      ({ base with pphase := .fetch } : State).widx.written = false) ∧
    (({ base with pmode := .audio } : State).pmode = .audio ∧
      ¬ ({ base with pmode := .audio } : State).ridx.written) ∧
    (({ session .drain 64 10 10 40 64 with scnt := Reg.unwritten 0 } : State).ridx.val ≠ 64 ∧
      ¬ ({ session .drain 64 10 10 40 64 with scnt := Reg.unwritten 0 } : State).scnt.written) ∧
    (({ base with pmode := .detect, threshValid := true } : State).threshValid = true ∧
      ¬ ({ base with pmode := .detect, threshValid := true } : State).pos.written) := by decide

/-! #### The detector -/

/-- The four kinds of state the preconditions of the HOST's detector and timer operations tell apart. -/
theorem witness_MeasureReturnsHeadAndDifference :
    (session .refill 0 0 0 40 0).pphase ≠ .idle ∧
    ((detecting 0 0 [] []).pphase = .idle ∧ (detecting 0 0 [] []).pmode ≠ .off ∧
      (detecting 0 0 [] []).pmode ≠ .blink) ∧
    (base.pphase = .idle ∧ base.pmode = .off) ∧
    (({ base with pmode := .blink } : State).pphase = .idle ∧ ({ base with pmode := .blink } : State).pmode = .blink) := by
  decide

/-- The difference, the headroom and the difference sum of the next measurement, as the model computes them. -/
theorem measured (s : State) : s.ndAt 0 = (measure s).1.1 ∧ s.headAt 0 = (measure s).1.2 ∧
    s.dsumAt 0 = (intervals 8 s).1.2 := by
  rw [measure_eq, intervals_eq]
  exact ⟨rfl, rfl, by simp [State.dsumAt]⟩

theorem witness_MeasureDrawsAndDrives : (nextOf (exec .detMeasure { base with adc := sd 50 })).isSome = true := by
  decide +kernel

/-- M2 within the range, and a head of 1 with a difference average of 1. -/
theorem witness_MeasuredDifferenceRange :
    (1 ≤ ({ base with adc := sd 50 } : State).headAt 0 ∧
      ({ base with adc := sd 50 } : State).dsumAt 0 / 16 ≤ ({ base with adc := sd 50 } : State).headAt 0) ∧
    (nextOf (exec .detMeasure { base with adc := sd 50 })).isSome = true ∧
    ({ base with adc := script 1022 1021 1022 } : State).headAt 0 = 1 ∧
    ({ base with adc := script 1022 1021 1022 } : State).dsumAt 0 / 16 = 1 := by
  simp only [measured]
  decide +kernel

theorem witness_BaselineRead : (detecting 0 0 [] []).pmode ≠ .off ∧ (detecting 0 0 [] []).pmode ≠ .blink ∧
    (session .drain 0 0 0 0 0).pphase ≠ .idle ∧ base.pphase = .idle ∧ base.pmode = .off := by decide

theorem witness_DetectionStarts : (session .drain 0 0 0 0 0).pphase ≠ .idle ∧
    ({ base with pmode := .blink } : State).pmode ≠ .off ∧ base.pphase = .idle ∧ base.pmode = .off ∧
    ({ base with bits := [true] } : State).bits = true :: [] := by decide

theorem witness_DetectionStops : (session .drain 0 0 0 0 0).pphase ≠ .idle ∧
    (({ base with pmode := .blink } : State).pphase = .idle ∧ ({ base with pmode := .blink } : State).pmode ≠ .detect ∧
      ({ base with pmode := .blink } : State).pmode ≠ .off) ∧
    ((detecting 5 0 [] [true]).pphase = .idle ∧ (detecting 5 0 [] [true]).pmode = .detect) ∧
    (base.pphase = .idle ∧ base.pmode = .off) := by decide

/-- Not DETECT; no threshold; a measured difference at the threshold; and just below it, with NEG 0 and 1. -/
theorem witness_DetectionTickDebounces :
    base.pmode ≠ .detect ∧
    ({ detecting 0 0 [] [] with threshValid := false } : State).threshValid = false ∧
    (∀ n ∈ [(0 : Byte), 1], (detecting 3 n (sd 49) [false]).pmode = .detect ∧
      (detecting 3 n (sd 49) [false]).threshValid = true ∧ (detecting 3 n (sd 49) [false]).pos.written ∧
      (detecting 3 n (sd 49) [false]).neg.written ∧ (detecting 3 n (sd 49) [false]).neg.val.toNat ≤ 1) ∧
    (detecting 3 0 (sd 50) []).ndAt 0 = 50 ∧ (detecting 3 0 (sd 49) [false]).ndAt 0 = 49 := by
  simp only [measured]
  decide +kernel

theorem witness_AlarmIsAboveTheTrigger : (session .drain 0 0 0 0 0).pphase ≠ .idle ∧
    (base.pphase = .idle ∧ base.pmode ≠ .audio ∧ base.pos.written = false) ∧
    (∀ p ∈ [(4 : Byte), 5], (detecting p 0 [] []).pphase = .idle ∧ (detecting p 0 [] []).pmode ≠ .audio ∧
      (detecting p 0 [] []).pos.written = true) := by
  decide

theorem witness_CalibrationSearches : (session .drain 0 0 0 0 0).pphase ≠ .idle ∧
    ({ base with pmode := .blink } : State).pmode ≠ .off ∧ base.pphase = .idle ∧ base.pmode = .off := by decide

/-- K4: the start has reached the bound. -/
theorem witness_CalibrationIsBounded :
    (nextOf (exec .detCalibrate { base with adc := sd 100 })).isSome = true := by decide +kernel

/-- A block whose sensor reads 0 throughout, as K5: the first trial hits 0, and 32 stay below 5. -/
def calm : State := { base with adc := List.replicate 13056 0 }

theorem calm_sampleAt {k : Nat} (h : k < 13056) : calm.sampleAt k = 0 := by
  simp only [State.sampleAt, calm, List.getElem?_replicate, if_pos h, inSensorRange, Nat.zero_mod]

theorem calm_ovsAt {k : Nat} (h : k + 16 ≤ 13056) : calm.ovsAt k = 0 := by
  have hz : ((List.range 16).map fun j => calm.sampleAt (k + j)) = List.replicate 16 0 := by
    rw [List.eq_replicate_iff]
    refine ⟨by simp, fun v hv => ?_⟩
    obtain ⟨j, hj, rfl⟩ := List.mem_map.mp hv
    exact calm_sampleAt (by have := List.mem_range.mp hj; omega)
  simp [State.ovsAt, hz]

theorem calm_ndAt {j : Nat} (h : j < 34) : calm.ndAt (384 * j) = 0 := by
  have hz : calm.dsumAt (384 * j) = 0 := by
    simp only [State.dsumAt]
    rw [show ((List.range 8).map fun i =>
        ((calm.ovsAt (384 * j + 48 * i + 16) : Int) - calm.ovsAt (384 * j + 48 * i)).natAbs +
          ((calm.ovsAt (384 * j + 48 * i + 16) : Int) - calm.ovsAt (384 * j + 48 * i + 32)).natAbs) =
        List.replicate 8 0 from ?_]
    · rfl
    · rw [List.eq_replicate_iff]
      refine ⟨by simp, fun v hv => ?_⟩
      obtain ⟨i, hi, rfl⟩ := List.mem_map.mp hv
      have := List.mem_range.mp hi
      rw [calm_ovsAt (by omega), calm_ovsAt (by omega), calm_ovsAt (by omega)]
      rfl
  simp only [State.ndAt, hz]
  split <;> simp

/-- A search that fails at once, and one that converges after a hit. -/
theorem witness_SearchIsDeterministic :
    Search (fun j => ({ base with adc := sd 100 } : State).ndAt (384 * j)) 100
      (({ base with adc := sd 100 } : State).ndAt 0) 1 none 1 ∧
    Search (fun j => calm.ndAt (384 * j)) 100 (calm.ndAt 0) 1 (some 10) 34 := by
  have h0 : calm.ndAt 0 = 0 := calm_ndAt (j := 0) (by omega)
  refine ⟨.bound (by simp only [measured]; decide +kernel), ?_⟩
  rw [h0]
  refine .hit (j := 0) (by omega) (by omega) (fun i hi => absurd hi (by omega)) (Nat.zero_le _)
    (.done (by omega) fun i hi => ?_)
  have : calm.ndAt (384 * (1 + 0 + 1 + i)) = 0 := calm_ndAt (by omega)
  simp only [this]
  omega

theorem witness_CalibratedThresholdClears : calm.fault = none ∧ calm.pphase = .idle ∧ calm.pmode = .off ∧
    calm.params.wf ∧ ∃ t, exec .detCalibrate calm = .next t ∧ t.ret = some 1 ∧ t.thresh = 10 := by
  refine ⟨rfl, rfl, rfl, by decide, calibrate calm, rfl, ?_⟩
  obtain ⟨r, m, hs, hc⟩ := calibrate_search calm
  rw [show calm.ndAt 0 = 0 from calm_ndAt (j := 0) (by omega), show calm.params.calMax = 100 from rfl] at hs
  have hr : r = some 10 := by
    cases hs with
    | bound h => omega
    | done _ h => exact absurd (h 0 (by omega)) (by omega)
    | @hit _ _ j _ _ _ hj hall _ hs =>
      rcases j with _ | j
      · cases hs with
        | bound h => omega
        | done => rfl
        | hit _ hi _ hit _ =>
          rw [calm_ndAt (by omega)] at hit
          omega
      · exact absurd (hall 0 (by omega)) (by omega)
  rw [hc, hr]
  exact ⟨rfl, rfl⟩

/-- A negative tick, and then a positive or a second negative one. -/
theorem witness_HysteresisOfTheStreaks :
    (detecting 3 0 (sd 10 ++ sd 60) [false]).neg = ⟨0, true⟩ ∧
    (detecting 3 0 (sd 10 ++ sd 60) [false]).pos.val.toNat < 255 ∧
    (detecting 3 0 (sd 10 ++ sd 60) [false]).ndAt 0 < 50 ∧
    50 ≤ (after .detTick (detecting 3 0 (sd 10 ++ sd 60) [false])).ndAt 0 ∧
    (after .detTick (detecting 3 0 (sd 10 ++ sd 49) [false])).ndAt 0 < 50 ∧
    (nextOf (exec .detTick (after .detTick (detecting 3 0 (sd 10 ++ sd 60) [false])))).isSome = true := by
  simp only [measured]
  decide +kernel

theorem witness_BlinkArms : (session .drain 0 0 0 0 0).pphase ≠ .idle ∧
    (detecting 0 0 [] []).pphase = .idle ∧ (detecting 0 0 [] []).pmode ≠ .off ∧ base.pphase = .idle ∧
    base.pmode = .off := by decide

theorem witness_BlinkDisarms : (session .drain 0 0 0 0 0).pphase ≠ .idle ∧
    ((detecting 0 0 [] []).pphase = .idle ∧ (detecting 0 0 [] []).pmode ≠ .blink ∧
      (detecting 0 0 [] []).pmode ≠ .off) ∧
    (base.pphase = .idle ∧ base.pmode = .off) ∧
    (({ base with pmode := .blink } : State).pphase = .idle ∧ ({ base with pmode := .blink } : State).pmode = .blink) := by
  decide

/-- A number of the table that is written, one that is not, and the reserved numbers 0x0F and 0x18. -/
theorem witness_ReadRegReadsTheTable : base.registerTable.lookup 0x17 = some (some 0) ∧
    base.registerTable.lookup 0x00 = some none ∧ base.registerTable.lookup 0x0F = none ∧
    base.registerTable.lookup 0x18 = none := by decide

theorem witness_ReadMemReadsTheRing : ({ base with ring := [(255, 7)] } : State).ring.read 255 = some 7 ∧
    base.ring.read 0 = none := by decide

/-! #### The whole machine: good states -/

/-- A good state that is not in a session has the power-on values of the session registers or those of an ended
session. -/
theorem good_base : BlockInv base where
  ringWf := rfl
  purpose := by decide
  output := by decide
  status := by decide
  pendRange := by decide
  pendZero := fun _ => rfl
  emitter := rfl
  negRange := by decide
  streaks := fun h => absurd h (by decide)
  rbErr := by decide
  detErr := .inl rfl
  session := fun h => absurd rfl h

/-- A good state of each phase of a session: two bytes, 0xA0 and 0xA1, are published or about to be. -/
def sRefill : State := { session .refill 2 0 0 2 2 with ring := [(0, 0xA0), (1, 0xA1)] }
def sFetch : State := { session .fetch 0 0 0 2 0 with storage := [.ok 2 [0xA0, 0xA1]] }
def sCommit : State := { session .commit 0 0 0 2 0 with ring := [(0, 0xA0), (1, 0xA1)], pend := 2 }
def sDrain : State := { session .drain 2 0 0 2 2 with ring := [(0, 0xA0), (1, 0xA1)] }

theorem good_of_session {s : State} (h1 : s.ring.wf = true) (h2 : s.pphase ≠ .idle ∧ s.pmode = .audio ∧
      s.aoutEn = true ∧ s.rbStatus = .active ∧ s.pend.toNat ≤ 32 ∧ (s.pphase ≠ .commit → s.pend = 0) ∧
      s.emit = false ∧ s.neg.val.toNat ≤ 1 ∧ s.rbErr.toNat ≤ 5 ∧ s.detErr = 0) (h3 : SessionInv s) : BlockInv s where
  ringWf := h1
  purpose := ⟨fun _ => h2.2.1, fun _ => h2.1⟩
  output := ⟨fun _ => h2.2.1, fun _ => h2.2.2.1⟩
  status := ⟨fun _ => h2.1, fun _ => h2.2.2.2.1⟩
  pendRange := h2.2.2.2.2.1
  pendZero := h2.2.2.2.2.2.1
  emitter := h2.2.2.2.2.2.2.1
  negRange := h2.2.2.2.2.2.2.2.1
  streaks := fun h => absurd (h2.2.1.symm.trans h) (by decide)
  rbErr := h2.2.2.2.2.2.2.2.2.1
  detErr := .inl h2.2.2.2.2.2.2.2.2.2
  session := fun _ => h3

theorem good_sRefill : BlockInv sRefill :=
  good_of_session (by decide) (by decide) ⟨by decide, by decide, by decide, by decide, by decide, by decide⟩
theorem good_sFetch : BlockInv sFetch :=
  good_of_session (by decide) (by decide) ⟨by decide, by decide, by decide, by decide, by decide, by decide⟩
theorem good_sCommit : BlockInv sCommit :=
  good_of_session (by decide) (by decide) ⟨by decide, by decide, by decide, by decide, by decide, by decide⟩
theorem good_sDrain : BlockInv sDrain :=
  good_of_session (by decide) (by decide) ⟨by decide, by decide, by decide, by decide, by decide, by decide⟩

/-- Both exits of a session, from good states. -/
theorem witness_TeardownOnEveryExit :
    (BlockInv { sDrain with ridx := ⟨2, true⟩, scnt := ⟨2, true⟩ } ∧
      (nextOf (exec .rbDrain { sDrain with ridx := ⟨2, true⟩, scnt := ⟨2, true⟩ })).isSome = true) ∧
    BlockInv { sFetch with storage := [.err 4] } ∧
      ({ sFetch with storage := [.err 4] } : State).answer = .err 4 ∧
      (nextOf (exec .rbWrite { sFetch with storage := [.err 4] })).isSome = true :=
  ⟨⟨good_of_session (by decide) (by decide) ⟨by decide, by decide, by decide, by decide, by decide, by decide⟩,
      by decide⟩,
    good_of_session (by decide) (by decide) ⟨by decide, by decide, by decide, by decide, by decide, by decide⟩,
    rfl, by decide⟩

/-- A fault an operation takes, and one after an answer was consumed. -/
theorem witness_FaultsArePrecise : (after .rbPoll base).fault ≠ none ∧
    (after .rbWrite { sFetch with storage := [.err 0] }).fault ≠ none := by decide

theorem witness_StepKeepsTheInvariant : BlockInv sDrain ∧ (nextOf (step sDrain)).isSome = true :=
  ⟨good_sDrain, by decide⟩

theorem witness_StepKeepsTheRingCanonical : sDrain.ring.wf = true ∧
    (nextOf (step (sFetch.present .host [0x03000000]))).map (·.ring.wf) = some true := by decide

theorem witness_SessionNeverFaults : BlockInv sRefill ∧ sRefill.pphase = .refill ∧ BlockInv sFetch ∧
    sFetch.pphase = .fetch ∧ answerOk sFetch.answer = true ∧ BlockInv sCommit ∧ sCommit.pphase = .commit ∧
    BlockInv sDrain ∧ sDrain.pphase = .drain ∧ sDrain.pmode = .audio :=
  ⟨good_sRefill, rfl, good_sFetch, rfl, by decide, good_sCommit, rfl, good_sDrain, rfl, rfl⟩

/-- One state and operation for each clause. -/
theorem witness_RingIsAQueue :
    (BlockInv base ∧ (after (.playStart 7 2) base).fault = none) ∧
    (BlockInv sFetch ∧ sFetch.answer = .ok 2 [0xA0, 0xA1] ∧ (after .rbWrite sFetch).fault = none) ∧
    (BlockInv sCommit ∧ (after .rbCommit sCommit).published = [some 0xA0, some 0xA1]) ∧
    (BlockInv sDrain ∧ (after .audioTick sDrain).published = [some 0xA1]) ∧
    (BlockInv sRefill ∧ (after .rbPoll sRefill).published = [some 0xA0, some 0xA1]) :=
  ⟨⟨good_base, by decide⟩, ⟨good_sFetch, rfl, by decide⟩, ⟨good_sCommit, by decide⟩, ⟨good_sDrain, by decide⟩,
    good_sRefill, by decide⟩

/-- A session of one sample: PLAY_START, a poll, the answer, the commit and two ticks, the second one silence. -/
def opened : State := after (.playStart 7 1) { base with storage := [.ok 2 [0xA0, 0xA1]] }
def polled : State := after .rbPoll opened
def received : State := after .rbWrite polled
def committed : State := after .rbCommit received
def ticked : State := after .audioTick committed

theorem witness_SessionPlaysTheCommittedBytes : Session 1 (after .audioTick ticked) [0xA0, 0xA1] [0xA0, 0x80] := by
  have good : BlockInv { base with storage := [.ok 2 [0xA0, 0xA1]] } :=
    ⟨rfl, by decide, by decide, by decide, by decide, fun _ => rfl, rfl, by decide, fun h => absurd h (by decide),
      by decide, .inl rfl, fun h => absurd rfl h⟩
  have h1 : Session 1 opened [] [] := .start good (exec_after (by decide)) (by decide)
  have h2 : Session 1 polled [] [] :=
    .other (i := .rbPoll) h1 (by decide) (by decide) (exec_after (by decide)) (by decide) (by decide)
  have h3 : Session 1 received [] [] :=
    .other (i := .rbWrite) h2 (by decide) (by decide) (exec_after (by decide)) (by decide) (by decide)
  have h4 : Session 1 committed [0xA0, 0xA1] [] :=
    .commit (new := [0xA0, 0xA1]) h3 (by decide) (exec_after (by decide)) (by decide)
  have h5 : Session 1 ticked [0xA0, 0xA1] [0xA0] := .play h4 (by decide) (exec_after (by decide)) (by decide)
  exact .play h5 (by decide) (exec_after (by decide)) (by decide)

theorem witness_DrainTakesLevelTicks : BlockInv sDrain ∧ sDrain.fault = none ∧ sDrain.pphase = .drain ∧
    sDrain.level = 2 := ⟨good_sDrain, rfl, rfl, by decide⟩

theorem witness_EmptyClipEndsAtOnce : base.fault = none ∧ base.pphase = .idle ∧ base.pmode = .off := by decide

/-- One change of purpose of each kind, from good states. -/
theorem witness_PurposeMovesThroughOff :
    (BlockInv base ∧ (after (.playStart 0 0) base).pmode = .audio ∧ (after .detStart base).pmode = .detect ∧
      (after .tmrArmBlink base).pmode = .blink) ∧
    (after .detStop (after .detStart base)).pmode = .off ∧ (after .tmrDisarm (after .tmrArmBlink base)).pmode = .off ∧
    (after .rbWrite { sFetch with storage := [.err 1] }).pmode = .off ∧
    (after .rbDrain (session .drain 2 2 2 2 2)).pmode = .off :=
  ⟨⟨good_base, by decide⟩, by decide⟩

/-- A step from a state with written registers and ring bytes (WrittenStaysWritten, HistoryOnlyGrows,
ReadingsAreInRange, ParametersAreFixed). -/
theorem witness_steps : (nextOf (step sDrain)).isSome = true ∧ sDrain.widx.written ∧ sDrain.ring.read 1 ≠ none ∧
    (nextOf (step (base.present .host [0x21000000]))).isSome = true := by decide

/-- An operation that writes each register (RegistersHaveTheirWriters). -/
theorem witness_RegistersHaveTheirWriters :
    (after .rbCommit sCommit).widx ≠ sCommit.widx ∧ (after .rbCommit sCommit).bread ≠ sCommit.bread ∧
    (after .audioTick sDrain).ridx ≠ sDrain.ridx ∧ (after .audioTick sDrain).scnt ≠ sDrain.scnt ∧
    (after .audioTick sDrain).aout ≠ sDrain.aout ∧ (after (.playStart 0 5) base).target ≠ base.target ∧
    (after .rbPoll sRefill).pphase ≠ sRefill.pphase ∧
    (after .rbWrite { sFetch with storage := [.err 1] }).rbErr ≠ 0 ∧
    (after .rbWrite sFetch).pend ≠ sFetch.pend ∧ (after .rbWrite sFetch).pphase ≠ sFetch.pphase ∧
    (after (.playStart 0 5) base).rbStatus ≠ base.rbStatus ∧ (after (.playStart 0 5) base).aoutEn ≠ base.aoutEn ∧
    (after .tmrArmBlink base).pmode ≠ base.pmode ∧ (after .rbPoll base).fault ≠ base.fault ∧
    (after .detStart base).pos ≠ base.pos ∧ (after .detStart { base with bits := [true] }).ind ≠ base.ind ∧
    (after .rbWrite sFetch).ring.read 0 ≠ sFetch.ring.read 0 := by decide
theorem witness_DetectorErrorIsWritten : (after .detCalibrate { base with adc := sd 100 }).detErr ≠ base.detErr ∧
    (after .detMeasure { base with adc := sd 50, emit := true }).emit = false := by
  decide +kernel

/-- A poll that requests a chunk, at the low-water mark. -/
theorem witness_ChunkRequestedOnlyAtLowWater :
    (nextOf (exec .rbPoll (session .refill 192 0 0 1000 192))).map (·.events) =
      some ([.storageRead 32 192] ++ (session .refill 192 0 0 1000 192).events) := by decide

/-- One header for each failing check and one that passes, three words for PLAY_START's code, on both ports. -/
theorem witness_StepRecordsDecodeFaults :
    headerCheck .host 0x06000001 = some .illegalOpcode ∧ headerCheck .host 0x01000100 = some .reservedNonzero ∧
    headerCheck .timer 0x02000001 = some .reservedNonzero ∧ headerCheck .host 0x10000000 = some .wrongAgent ∧
    headerCheck .timer 0x40000007 = some .wrongAgent ∧ headerCheck .timer 0x24000000 = none ∧
    headerCheck .host 0x410000FF = none ∧
    (base.present .host [0x01000100, 0, 0]).turns = .host :: [] ∧
    (base.present .host [0x01000100, 0, 0]).port .host = 0x01000100 :: [0, 0] ∧
    (base.present .timer [0x40000007, 5]).port .timer = 0x40000007 :: [5] := by decide

/-- A run that is over in each of the two purposes, and a good state in detection. -/
theorem witness_RunEnds : commandPresent base.hostPort = false ∧ commandPresent base.timerPort = false ∧
    base.pphase = .idle ∧ base.pmode = .off ∧ ({ base with pmode := .blink } : State).pmode = .blink ∧
    BlockInv (detecting 0 0 [] []) ∧ (detecting 0 0 [] []).pmode = .detect ∧
    (detecting 0 0 [] []).threshValid = true ∧ (detecting 0 0 [] []).turns = [] :=
  ⟨rfl, rfl, rfl, rfl, rfl, ⟨rfl, by decide, by decide, by decide, by decide, fun _ => rfl, rfl, by decide,
    fun _ => by decide, by decide, .inl rfl, fun h => absurd rfl h⟩, rfl, rfl, rfl⟩

end Sys2Proof.Tests
end

section
/-! Headers that fail the first two checks of 30_encoding.md R120: which fault `headerFault` names, and what
presenting such a command does. -/

namespace Sys2Proof

/-- The codes outside R116, as the ranges that lie between its rows (30_encoding.md R117). -/
theorem legalOpcode_eq_false_iff (o : Byte) :
    legalOpcode o = false ↔
      o.toNat = 0x00 ∨ 0x06 ≤ o.toNat ∧ o.toNat ≤ 0x0F ∨ 0x11 ≤ o.toNat ∧ o.toNat ≤ 0x1F ∨
        0x27 ≤ o.toNat ∧ o.toNat ≤ 0x2F ∨ 0x32 ≤ o.toNat ∧ o.toNat ≤ 0x3F ∨ 0x42 ≤ o.toNat ∧ o.toNat ≤ 0xFF := by
  have hlt := o.isLt
  simp only [legalOpcode, legalCodes, List.contains_eq_mem, decide_eq_false_iff_not, List.mem_cons,
    List.not_mem_nil, or_false, not_or, ← BitVec.toNat_inj, BitVec.ofNat_eq_ofNat, BitVec.toNat_ofNat]
  omega

theorem takesA8_eq_false_iff (o : Byte) : takesA8 o = false ↔ o ≠ 0x40 ∧ o ≠ 0x41 := by
  simp [takesA8]

/-- The well-formedness check of the opcode and the decoder's read the same table (30_encoding.md R116). -/
theorem codes_contains_extract (w : Word) :
    Command.codes.contains (w.extractLsb' 24 8) = legalOpcode (opcOf w) := by
  rw [opcOf_eq_extract]
  rfl

theorem headerFault_of_illegal {w : Word} (h : legalOpcode (opcOf w) = false) :
    headerFault w = some .illegalOpcode := by
  simp [headerFault, h]

/-- RSV is checked before A8, and both name the same fault (30_encoding.md R118, R120). -/
theorem headerFault_of_reserved {w : Word} (hl : legalOpcode (opcOf w) = true)
    (h : rsvOf w ≠ 0 ∨ takesA8 (opcOf w) = false ∧ a8Of w ≠ 0) : headerFault w = some .reservedNonzero := by
  rw [headerFault, if_neg (not_not.mpr hl)]
  by_cases hr : rsvOf w = 0
  · obtain ⟨ht, ha⟩ := h.resolve_left (not_not.mpr hr)
    rw [if_neg (not_not.mpr hr), if_pos ⟨by simp [ht], ha⟩]
  · rw [if_pos hr]

/-- A header the encoder writes passes the checks, where its code is legal and its operand allowed. -/
theorem headerFault_headerWord {o a : Byte} (hl : legalOpcode o = true) (ha : takesA8 o = true ∨ a = 0) :
    headerFault (headerWord o a) = none := by
  rw [headerFault_eq_none, opcOf_headerWord, rsvOf_headerWord, a8Of_headerWord]
  exact ⟨hl, rfl, ha⟩

namespace Machine

/-- `State.raise` changes the three fields that 60_exceptions.md R256 names, and no other. -/
theorem State.raise_eq_faultRecorded (s : State) (ag : Agent) (o : Byte) (c : BlockFault) :
    s.raise ag o c = s.faultRecorded ag o c := by
  cases ag <;> rfl

/-- A header that fails a check is not performed: its fault is recorded, whoever presents it and whatever words
follow (30_encoding.md R120, 60_exceptions.md R256). -/
theorem perform_of_headerFault {w : Word} {f : DecodeFault} {c : BlockFault} (ag : Agent) (rest : List Word)
    (s : State) (hw : headerFault w = some f) (hc : decodeBlockFault f = some c) :
    perform ag (w :: rest) s = .next (s.faultRecorded ag (w.extractLsb' 24 8) c) := by
  have hd : decodeFor ag (w :: rest) = .error f := by rw [decodeFor_cons, hw]
  simp only [perform, hd, hc, headOpcode, opcOf_eq_extract, State.raise_eq_faultRecorded]

/-- Settles O4: the ranges are the gaps of the table, and the opcode check is the first one. -/
theorem illegalOpcodeFaults : Obligations.IllegalOpcodeFaults := by
  intro ag w rest s _ o
  refine ⟨?_, fun h => ?_⟩
  · rw [codes_contains_extract, opcOf_eq_extract]
    exact legalOpcode_eq_false_iff _
  · rw [codes_contains_extract] at h
    exact perform_of_headerFault ag rest s (headerFault_of_illegal h) rfl

/-- Settles O5: RSV and A8 are checked right after the opcode; PLAY_START's operand words are taken as they are. -/
theorem reservedBitsFault : Obligations.ReservedBitsFault := by
  refine ⟨fun ag w rest s _ hl h => ?_, fun startBlock byteSize rest => ?_⟩
  · rw [codes_contains_extract] at hl
    rw [← rsvOf_eq_extract, ← a8Of_eq_extract, ← opcOf_eq_extract, ← takesA8_eq_false_iff, and_comm] at h
    exact perform_of_headerFault ag rest s (headerFault_of_reserved hl h) rfl
  · have hw : (0x01000000 : Word) = headerWord 0x01 0 := rfl
    rw [hw, decode_cons, headerFault_headerWord rfl (.inr rfl)]
    exact assemble_playStart startBlock byteSize rest

end Machine
end Sys2Proof
end

section
/-! The audio stream operations, forward: which check of R143 to R148 stops an operation, and which state it
leaves when none does. From these the statements of 41_audio_stream.md and the teardown of R142 follow. -/

namespace Sys2Proof.Machine

/-! ### Checks that fail -/

/-- A failing check of an operation is recorded as 60_exceptions.md R256 says. -/
theorem operate_records {s : State} {ag : Agent} {o : Byte} {c : BlockFault} {k : Except BlockFault State}
    (hf : s.fault = none) (hk : k = .error c) : operate s ag o k = .next (s.faultRecorded ag o c) := by
  rw [operate_error hf hk, State.raise_eq_faultRecorded]

theorem outsideSession_of_active {α : Type} {s : State} {p : Prop} [Decidable p] (k : Except BlockFault α)
    (h : s.pphase ≠ .idle) : outsideSession s p k = .error .sessionActive :=
  check_of_false _ _ h

theorem outsideSession_of_busy {α : Type} {s : State} {p : Prop} [Decidable p] (k : Except BlockFault α)
    (h : s.pphase = .idle) (hp : ¬ p) : outsideSession s p k = .error .pmodeBusy := by
  rw [outsideSession, check_of_true _ _ h, check_of_false _ _ hp]

theorem answerOk_ok_iff {n : Nat} {bytes : List Byte} :
    answerOk (.ok n bytes) = true ↔ n ≤ 32 ∧ bytes.length = n := by
  simp [answerOk]

theorem answerOk_err_iff {code : Byte} :
    answerOk (.err code) = true ↔ 1 ≤ code.toNat ∧ code.toNat ≤ 5 := by
  simp [answerOk]

/-! ### The flags as numbers -/

theorem State.indicesWritten_iff {s : State} :
    s.indicesWritten = true ↔ s.widx.written = true ∧ s.ridx.written = true := by
  simp [State.indicesWritten]

theorem State.empty_iff {s : State} : s.empty = true ↔ s.ridx.val = s.widx.val := by
  simp [State.empty]

theorem State.empty_eq_false_iff {s : State} : s.empty = false ↔ s.ridx.val ≠ s.widx.val := by
  simp [State.empty]

/-- A ring with a level above 0 is not empty (10_state.md R54, R55). -/
theorem State.empty_of_level_pos {s : State} (h : 0 < s.level.toNat) : s.empty = false := by
  rw [State.empty_eq_false_iff]
  intro heq
  simp [State.level, heq] at h

theorem State.lowWater_iff {s : State} : s.lowWater = true ↔ s.level.toNat ≤ 192 := by
  simp [State.lowWater]

/-! ### Sums within a width -/

/-- A sum of two values reduced to the first one's width (00_scope.md R12). -/
theorem ofNat_toNat_add {w v : Nat} (x : BitVec w) (y : BitVec v) :
    BitVec.ofNat w (x.toNat + y.toNat) = x + y.setWidth w := by
  rw [BitVec.ofNat_add, BitVec.ofNat_toNat, BitVec.ofNat_toNat, BitVec.setWidth_eq]

theorem ofNat_toNat_succ {w : Nat} (x : BitVec w) : BitVec.ofNat w (x.toNat + 1) = x + 1 := by
  rw [BitVec.ofNat_add, BitVec.ofNat_toNat, BitVec.setWidth_eq]
  rfl

/-! ### PLAY_START -/

/-- The state PLAY_START leaves, field by field (41_audio_stream.md R143). -/
theorem openSession_eq (startBlock byteSize : Word) (s : State) :
    openSession startBlock byteSize s = { s with
      aoutEn := true
      ridx := ⟨0, true⟩
      widx := ⟨0, true⟩
      scnt := ⟨0, true⟩
      target := ⟨byteSize, true⟩
      bread := ⟨0, true⟩
      pend := 0
      pmode := .audio
      pphase := .refill
      rbStatus := .active
      events := .storageStartMulti startBlock :: .timerArm .audio :: .audioEnable true :: s.events
      ret := none } := rfl

theorem openSession_level (startBlock byteSize : Word) (s : State) :
    (openSession startBlock byteSize s).level = 0 :=
  BitVec.sub_self _

theorem exec_playStart_idle {startBlock byteSize : Word} {s : State} (hf : s.fault = none)
    (hp : s.pphase = .idle) (hm : s.pmode = .off) :
    exec (.playStart startBlock byteSize) s = .next (openSession startBlock byteSize s) :=
  operate_ok hf (outsideSession_eq_ok.mpr ⟨hp, hm, rfl⟩)

/-- Settles O14: the two checks in their order, then `openSession`, whose indices are equal. -/
theorem playStartOpensASession : Obligations.PlayStartOpensASession := by
  intro startBlock byteSize s hf
  refine ⟨rfl, fun hp => ?_, fun hp hm => ?_, fun hp hm => ?_⟩
  · exact operate_records hf (outsideSession_of_active _ hp)
  · exact operate_records hf (outsideSession_of_busy _ hp hm)
  · refine ⟨_, exec_playStart_idle hf hp hm, openSession_eq startBlock byteSize s,
      openSession_level startBlock byteSize s, State.empty_iff.mpr rfl, ?_⟩
    rw [State.lowWater_iff, openSession_level]
    decide

/-! ### RB_POLL -/

theorem exec_rbPoll_refill {s : State} (hf : s.fault = none) (hp : s.pphase = .refill)
    (hw : s.widx.written = true) (hr : s.ridx.written = true) (hb : s.bread.written = true)
    (ht : s.target.written = true) : exec .rbPoll s = .next (pollEffect s) :=
  operate_ok hf (check_eq_ok.mpr ⟨hp, check_eq_ok.mpr ⟨⟨State.indicesWritten_iff.mpr ⟨hw, hr⟩, hb, ht⟩, rfl⟩⟩)

/-- Settles O15: the three cases of `pollEffect`, the loop test first. -/
theorem pollTestsTargetThenLevel : Obligations.PollTestsTargetThenLevel := by
  intro s hf
  refine ⟨rfl, fun hp => operate_records hf (check_of_false _ _ hp), fun hp hw hr hb ht => ?_⟩
  intro lvl
  have hlvl : s.level.toNat = lvl := level_toNat _ _
  rw [exec_rbPoll_refill hf hp hw hr hb ht, ← hlvl, BitVec.ofNat_toNat]
  rcases pollEffect_cases s with ⟨htgt, h⟩ | ⟨htgt, hlow, h⟩ | ⟨htgt, hhigh, h⟩
  · rw [h, if_pos (BitVec.le_def.mp htgt)]
  · rw [h, if_neg (mt BitVec.le_def.mpr htgt), if_pos hlow]
  · rw [h, if_neg (mt BitVec.le_def.mpr htgt), if_neg (Nat.not_le.mpr hhigh)]

/-! ### RB_WRITE -/

theorem State.answered_eq (s : State) :
    s.answered = { s with storage := s.storage.tail, draws := s.draws + (1 - s.storage.length) } := by
  rw [State.answered, spent_eq]

/-- In its phase RB_WRITE consumes the answer first, whatever comes of it (60_exceptions.md R256). -/
theorem exec_rbWrite_fetch {s : State} (hp : s.pphase = .fetch) :
    exec .rbWrite s =
      operate s.answered .host 0x03 (check (answerOk s.answer) .badResponse (receive s.answered s.answer)) :=
  if_pos hp

theorem exec_rbWrite_wrongPhase {s : State} (hf : s.fault = none) (hp : s.pphase ≠ .fetch) :
    exec .rbWrite s = .next (s.faultRecorded .host 0x03 .wrongPhase) :=
  (if_neg hp).trans (operate_records hf rfl)

theorem exec_rbWrite_malformed {s : State} (hf : s.fault = none) (hp : s.pphase = .fetch)
    (ha : ¬ answerOk s.answer = true) :
    exec .rbWrite s = .next (s.answered.faultRecorded .host 0x03 .badResponse) := by
  rw [exec_rbWrite_fetch hp]
  exact operate_records hf (check_of_false _ _ ha)

theorem exec_rbWrite_received {s t : State} (hf : s.fault = none) (hp : s.pphase = .fetch)
    (ha : answerOk s.answer = true) (ht : receive s.answered s.answer = .ok t) : exec .rbWrite s = .next t := by
  rw [exec_rbWrite_fetch hp]
  exact operate_ok hf (check_eq_ok.mpr ⟨ha, ht⟩)

/-- The state an exit of a session leaves, field by field (41_audio_stream.md R142). -/
theorem State.teardown_eq (s : State) (result : SessionStatus) :
    { s.teardown result with ret := none } = { s with
      pmode := .off
      aoutEn := false
      pend := 0
      pphase := .idle
      rbStatus := result
      events := .audioEnable false :: .timerArm .off :: s.events
      ret := none } := by
  simp

/-- A storage error tears the session down (41_audio_stream.md R145). -/
theorem exec_rbWrite_err {s : State} {code : Byte} (hf : s.fault = none) (hp : s.pphase = .fetch)
    (ha : s.answer = .err code) (h1 : 1 ≤ code.toNat) (h5 : code.toNat ≤ 5) :
    exec .rbWrite s = .next { s.answered with
      rbErr := code
      pmode := .off
      aoutEn := false
      pend := 0
      pphase := .idle
      rbStatus := .aborted
      events := .audioEnable false :: .timerArm .off :: s.events
      ret := none } :=
  exec_rbWrite_received hf hp (ha ▸ answerOk_err_iff.mpr ⟨h1, h5⟩)
    (by rw [ha, receive, State.teardown_eq]; rfl)

/-- The bytes of a chunk go into the ring at WIDX, not published yet (41_audio_stream.md R145). -/
theorem exec_rbWrite_ok {s : State} {n : Nat} {bytes : List Byte} (hf : s.fault = none)
    (hp : s.pphase = .fetch) (ha : s.answer = .ok n bytes) (hn : n ≤ 32) (hlen : bytes.length = n)
    (hw : s.widx.written = true ∨ n = 0) :
    exec .rbWrite s = .next { s.answered with
      ring := s.ring.writeBytes s.widx.val bytes
      pend := BitVec.ofNat 6 n
      pphase := .commit
      ret := none } :=
  exec_rbWrite_received hf hp (ha ▸ answerOk_ok_iff.mpr ⟨hn, hlen⟩)
    (by rw [ha]; exact check_of_true _ _ hw.symm)

/-- Byte `i` of a chunk stands `i` places after its base, wrapping at 256 (20_memory.md R85). -/
theorem Memory.read_writeBytes_at (m : Memory) (base : Byte) (vs : List Byte) (hlen : vs.length ≤ 256)
    (i : Nat) (h : i < vs.length) :
    (m.writeBytes base vs).read (base + BitVec.ofNat 8 i).toNat = some vs[i] := by
  have hi : (base + BitVec.ofNat 8 i - base).toNat = i := by
    rw [BitVec.add_comm, BitVec.add_sub_cancel, BitVec.toNat_ofNat]
    omega
  rw [Memory.read_writeBytes vs m base _ hlen]
  simp only [hi, h, dite_true]

/-- Settles O16: one clause per form of the answer; the ring of the last is `Memory.writeBytes`. -/
theorem writeReceivesTheChunk : Obligations.WriteReceivesTheChunk := by
  intro s hf u
  have hu : s.answered = u := s.answered_eq
  clear_value u
  subst hu
  refine ⟨rfl, exec_rbWrite_wrongPhase hf, fun hp code ha hbad => ?_, fun hp n bytes ha hbad => ?_,
    fun hp code ha h1 h5 => ?_, fun hp n bytes ha hn hlen hw => ?_⟩
  · exact exec_rbWrite_malformed hf hp (by rwa [ha, answerOk_err_iff])
  · exact exec_rbWrite_malformed hf hp (by rwa [ha, answerOk_ok_iff])
  · exact exec_rbWrite_err hf hp ha h1 h5
  · refine ⟨s.ring.writeBytes s.widx.val bytes, exec_rbWrite_ok hf hp ha hn hlen hw, ?_, fun a hother => ?_⟩
    · exact Memory.read_writeBytes_at _ _ _ (by omega)
    · exact Memory.read_writeBytes_of_ne _ _ _ _ (hlen ▸ hother)

/-! ### RB_COMMIT -/

/-- The state RB_COMMIT leaves, the sums reduced to their widths (41_audio_stream.md R146). -/
theorem publish_eq (s : State) :
    publish s = { s with
      widx := ⟨BitVec.ofNat 8 (s.widx.val.toNat + s.pend.toNat), true⟩
      bread := ⟨BitVec.ofNat 32 (s.bread.val.toNat + s.pend.toNat), true⟩
      pend := 0
      pphase := .refill
      ret := none } := by
  rw [ofNat_toNat_add, ofNat_toNat_add]
  rfl

/-- Where the registers RB_COMMIT reads are written, the overrun check alone decides. -/
theorem exec_rbCommit_commit {s : State} (hp : s.pphase = .commit) (hw : s.widx.written = true)
    (hr : s.ridx.written = true) (hb : s.bread.written = true) :
    exec .rbCommit s =
      operate s .host 0x04 (check (s.level.toNat + s.pend.toNat ≤ 255) .overrun (.ok (publish s))) := by
  show operate s .host 0x04 _ = _
  rw [check_of_true _ _ hp, check_of_true _ _ ⟨State.indicesWritten_iff.mpr ⟨hw, hr⟩, hb⟩]

/-- Settles O17: the overrun check is on LEVEL + PEND, which is the level a commit leaves. -/
theorem commitPublishesTheChunk : Obligations.CommitPublishesTheChunk := by
  intro s hf
  refine ⟨rfl, fun hp => operate_records hf (check_of_false _ _ hp), fun hp hw hr hb => ?_⟩
  intro lvl
  have hlvl : s.level.toNat = lvl := level_toNat _ _
  rw [exec_rbCommit_commit hp hw hr hb, ← hlvl]
  refine ⟨fun hover => operate_records hf (check_of_false _ _ (Nat.not_le.mpr hover)), fun hfits => ?_⟩
  have hnew := level_publish hfits
  refine ⟨publish s, operate_ok hf (check_of_true _ _ hfits), publish_eq s, hnew, fun hpend => ?_, ?_⟩
  · exact State.empty_of_level_pos (by omega)
  · rw [State.lowWater_iff, hnew]

/-! ### RB_DRAIN and the teardown -/

theorem exec_rbDrain_empty {s : State} (hf : s.fault = none) (hp : s.pphase = .drain)
    (hw : s.widx.written = true) (hr : s.ridx.written = true) (he : s.ridx.val = s.widx.val) :
    exec .rbDrain s = .next (endSession s) := by
  have hd : drainHolds s = false := by simp [drainHolds, State.empty_iff.mpr he]
  refine operate_ok hf (check_eq_ok.mpr ⟨hp, check_eq_ok.mpr ⟨State.indicesWritten_iff.mpr ⟨hw, hr⟩, ?_⟩⟩)
  rw [hd]
  rfl

/-- Settles O20: each exit is one equation for the next state, a teardown of `s` but for RB_ERR, the answer
consumed and the value returned. -/
theorem teardownOnEveryExit : Obligations.TeardownOnEveryExit := by
  rintro s t hf hinv (⟨h, hp, he⟩ | ⟨h, hp, code, ha, h1, h5⟩)
  · obtain ⟨hw, hr, -⟩ := (hinv.session (by simp [hp])).written
    rw [exec_rbDrain_empty hf hp hw hr he, endSession, State.teardown_eq] at h
    obtain rfl := Host.Outcome.next.inj h
    exact ⟨rfl, rfl, rfl, rfl, rfl, (if_pos hp).symm, rfl, rfl, rfl, rfl, rfl, rfl, fun _ => rfl⟩
  · rw [exec_rbWrite_err hf hp ha h1 h5] at h
    obtain rfl := Host.Outcome.next.inj h
    exact ⟨rfl, rfl, rfl, rfl, rfl, (if_neg (by simp [hp])).symm, rfl, rfl, rfl, rfl, rfl, rfl, fun _ => rfl⟩

/-! ### AUDIO_TICK -/

/-- The state a tick that plays `v` leaves, the sums reduced to their widths (41_audio_stream.md R148). -/
theorem playSample_eq (s : State) (v : Byte) :
    playSample s v = { s with
      aout := ⟨v, true⟩
      ridx := ⟨BitVec.ofNat 8 (s.ridx.val.toNat + 1), true⟩
      scnt := ⟨BitVec.ofNat 32 (s.scnt.val.toNat + 1), true⟩
      events := .sample v :: s.events } := by
  rw [ofNat_toNat_succ, ofNat_toNat_succ]
  rfl

theorem ringByte_eq_error {s : State} {addr : Byte} (h : s.ring.read addr.toNat = none) :
    ringByte s addr = .error .unwritten := by
  simp [ringByte, h]

theorem exec_audioTick_empty {s : State} (hf : s.fault = none) (hm : s.pmode = .audio)
    (hw : s.widx.written = true) (hr : s.ridx.written = true) (he : s.ridx.val = s.widx.val) :
    exec .audioTick s = .next s :=
  operate_ok hf (check_eq_ok.mpr
    ⟨hm, check_eq_ok.mpr ⟨State.indicesWritten_iff.mpr ⟨hw, hr⟩, if_pos (State.empty_iff.mpr he)⟩⟩)

/-- A tick on a ring that is not empty does what its sample says. -/
theorem exec_audioTick_nonempty {s : State} (hm : s.pmode = .audio) (hw : s.widx.written = true)
    (hr : s.ridx.written = true) (he : s.ridx.val ≠ s.widx.val) (hs : s.scnt.written = true)
    (ht : s.target.written = true) :
    exec .audioTick s = operate s .timer 0x10 ((nextSample s).map (playSample s)) := by
  show operate s .timer 0x10 _ = _
  rw [check_of_true _ _ hm, check_of_true _ _ (State.indicesWritten_iff.mpr ⟨hw, hr⟩),
    if_neg (mt State.empty_iff.mp he), check_of_true _ _ ⟨hs, ht⟩]

theorem operate_map_ok {s : State} {ag : Agent} {o v : Byte} {k : Except BlockFault Byte}
    {f : Byte → State} (hf : s.fault = none) (hk : k = .ok v) : operate s ag o (k.map f) = .next (f v) :=
  operate_ok hf (by rw [hk]; rfl)

/-- Settles O21: below TARGET the sample is the ring byte at RIDX, from TARGET on it is MIDSCALE. -/
theorem audioTickPlaysOneSample : Obligations.AudioTickPlaysOneSample := by
  intro s hf
  refine ⟨rfl, fun hm => operate_records hf (check_of_false _ _ hm), fun hm hw hr =>
    ⟨exec_audioTick_empty hf hm hw hr, fun he hs ht => ?_⟩⟩
  intro played
  have hplayed : ∀ v, playSample s v = played v := playSample_eq s
  rw [exec_audioTick_nonempty hm hw hr he hs ht]
  refine ⟨fun hlt => ⟨fun v hv => ?_, fun hv => ?_⟩, fun hge => ?_⟩
  · rw [← hplayed]
    exact operate_map_ok hf (nextSample_eq_ok.mpr (.inl ⟨hlt, hv⟩))
  · have hn : nextSample s = .error .unwritten := (if_pos hlt).trans (ringByte_eq_error hv)
    exact operate_records hf (by rw [hn]; rfl)
  · rw [← hplayed]
    exact operate_map_ok hf (nextSample_eq_ok.mpr (.inr ⟨Nat.not_lt.mpr hge, rfl⟩))

end Sys2Proof.Machine
end

section
/-! The detector's operations, forward: which check of 42_detector.md R182 to R188 stops an operation, and which
state it leaves when none does, in terms of the readings to come. -/

namespace Sys2Proof.Machine

/-! ### Readings and measured values -/

/-- Every reading is in the ADC's range, also where the environment's number is not (10_state.md R67). -/
theorem State.sampleAt_le (s : State) (k : Nat) : s.sampleAt k ≤ s.params.sensorMax :=
  Nat.le_of_lt_succ (Nat.mod_lt _ (Nat.succ_pos _))

/-- The average of 16 readings is in the range of one (42_detector.md R183). -/
theorem State.ovsAt_le (s : State) (k : Nat) : s.ovsAt k ≤ s.params.sensorMax := by
  have hsum : ((List.range 16).map fun j => s.sampleAt (k + j)).sum ≤ 16 * s.params.sensorMax := by
    simpa using List.sum_le_card_nsmul ((List.range 16).map fun j => s.sampleAt (k + j)) s.params.sensorMax
      (List.forall_mem_map.mpr fun j _ => s.sampleAt_le (k + j))
  exact Nat.div_le_of_le_mul hsum

/-- Under both overflow rules the normalized difference fits 16 bits (42_detector.md R182). -/
theorem State.ndAt_lt (s : State) (k : Nat) : s.ndAt k < 65536 := by
  unfold State.ndAt
  split
  · exact Nat.lt_succ_of_le (Nat.min_le_right _ _)
  · exact Nat.mod_lt _ (by decide)

/-- Two halves of a word, the low one within its 16 bits (30_encoding.md R123). -/
theorem ofNat_append_ofNat {hi lo : Nat} (h : lo < 65536) :
    BitVec.ofNat 16 hi ++ BitVec.ofNat 16 lo = BitVec.ofNat 32 (hi % 65536 * 65536 + lo) := by
  apply BitVec.eq_of_toNat_eq
  rw [BitVec.toNat_append, BitVec.toNat_ofNat, BitVec.toNat_ofNat, Nat.mod_eq_of_lt h,
    ← Nat.shiftLeft_add_eq_or_of_lt h, Nat.shiftLeft_eq, BitVec.toNat_ofNat]
  omega

/-! ### The indicator's draw -/

/-- Everything a draw of the indicator does (10_state.md R49). -/
theorem State.drawInd_eq (s : State) :
    s.drawInd = { s with
      ind := ⟨s.bit, true⟩
      events := .ind s.bit :: s.events
      bits := s.bits.tail
      draws := s.draws + (1 - s.bits.length) } := by
  rw [← spent_eq]
  rfl

/-! ### OVS(), DET_MEASURE and DET_GET_AVG -/

/-- Settles O23: `ovs_eq`, an induction over the 16 reads of `adcSum`. -/
theorem oversampledReading : Obligations.OversampledReading := ovs_eq

theorem exec_detMeasure_idle {s : State} (hf : s.fault = none) (hp : s.pphase = .idle)
    (hm : s.pmode = .off ∨ s.pmode = .blink) :
    exec .detMeasure s = .next { s.afterMeasures 1 with
      ret := some (BitVec.ofNat 32 (s.headAt 0 % 65536 * 65536 + s.ndAt 0)) } :=
  operate_ok hf (outsideSession_eq_ok.mpr ⟨hp, hm, by rw [measure_eq, ← ofNat_append_ofNat (s.ndAt_lt 0)]⟩)

/-- Settles O24: the closed form of `measure()`, whose two values are packed into one word. -/
theorem measureReturnsHeadAndDifference : Obligations.MeasureReturnsHeadAndDifference := by
  intro s hf
  refine ⟨rfl, measure_eq s, fun hp => ?_, fun hp hoff hblink => ?_, exec_detMeasure_idle hf⟩
  · exact operate_records hf (outsideSession_of_active _ hp)
  · exact operate_records hf (outsideSession_of_busy _ hp (not_or.mpr ⟨hoff, hblink⟩))

theorem exec_detGetAvg_idle {s : State} (hf : s.fault = none) (hp : s.pphase = .idle)
    (hm : s.pmode = .off ∨ s.pmode = .blink) :
    exec .detGetAvg s = .next { s.sensed 16 s.emit (s.readEvents 0 16) with
      ret := some (BitVec.ofNat 32 (s.ovsAt 0)) } :=
  operate_ok hf (outsideSession_eq_ok.mpr ⟨hp, hm, by rw [ovs_eq]⟩)

/-- Settles O27: one `OVS()`; its range is that of the readings it averages. -/
theorem baselineRead : Obligations.BaselineRead := by
  intro s hf
  refine ⟨rfl, fun hp => ?_, fun hp hoff hblink => ?_, exec_detGetAvg_idle hf, s.ovsAt_le 0⟩
  · exact operate_records hf (outsideSession_of_active _ hp)
  · exact operate_records hf (outsideSession_of_busy _ hp (not_or.mpr ⟨hoff, hblink⟩))

/-! ### DET_START and DET_STOP -/

/-- The state DET_START leaves, field by field (42_detector.md R184). -/
theorem startDetect_eq (s : State) :
    startDetect s = { s with
      pos := ⟨0, true⟩
      neg := ⟨0, true⟩
      ind := ⟨s.bit, true⟩
      pmode := .detect
      events := .timerArm .detect :: .ind s.bit :: s.events
      ret := none
      bits := s.bits.tail
      draws := s.draws + (1 - s.bits.length) } := by
  rw [startDetect, State.drawInd_eq]
  rfl

theorem startDetect_alarm (s : State) : (startDetect s).alarm = false := rfl

/-- Settles O28: the two checks in their order, then `startDetect`, whose indicator is the drawn bit. -/
theorem detectionStarts : Obligations.DetectionStarts := by
  intro s hf
  refine ⟨rfl, fun hp => ?_, fun hp hm => ?_, fun hp hm => ?_⟩
  · exact operate_records hf (outsideSession_of_active _ hp)
  · exact operate_records hf (outsideSession_of_busy _ hp hm)
  · exact ⟨s.bit, startDetect s, operate_ok hf (outsideSession_eq_ok.mpr ⟨hp, hm, rfl⟩),
      fun _ _ => State.bit_of_given, startDetect_alarm s, startDetect_eq s⟩

/-- The state DET_STOP leaves under either purpose it allows, field by field (42_detector.md R185). -/
theorem stopDetect_fields {s : State} (hm : s.pmode = .detect ∨ s.pmode = .off) :
    stopDetect s = { s with
      ind := ⟨s.bit, true⟩
      pmode := .off
      events := .ind s.bit :: (if s.pmode = .detect then .timerArm .off :: s.events else s.events)
      ret := none
      bits := s.bits.tail
      draws := s.draws + (1 - s.bits.length) } := by
  rw [stopDetect_eq, State.drawInd_eq, State.drawInd_eq]
  rcases hm with hm | hm
  · rw [if_pos hm, if_pos hm]
    rfl
  · have hne : s.pmode ≠ .detect := by simp [hm]
    rw [if_neg hne, if_neg hne, ← hm]

/-- Settles O29: DETECT is disarmed first, and under either purpose the indicator takes a draw. -/
theorem detectionStops : Obligations.DetectionStops := by
  intro s hf
  refine ⟨rfl, fun hp => ?_, fun hp hdet hoff => ?_, fun hp hm => ?_⟩
  · exact operate_records hf (outsideSession_of_active _ hp)
  · exact operate_records hf (outsideSession_of_busy _ hp (not_or.mpr ⟨hdet, hoff⟩))
  · exact ⟨s.bit, fun _ _ => State.bit_of_given,
      operate_ok hf (outsideSession_eq_ok.mpr ⟨hp, hm, by rw [stopDetect_fields hm]⟩)⟩

/-! ### DET_TICK -/

theorem streakUp_of_wrap {p : Params} (h : p.streakOvf = .wrap) (v : Byte) :
    streakUp p v = BitVec.ofNat 8 ((v.toNat + 1) % 256) := by
  rw [streakUp, h, ← ofNat_toNat_succ]
  apply BitVec.eq_of_toNat_eq
  simp

theorem streakUp_of_saturate {p : Params} (h : p.streakOvf = .saturate) (v : Byte) :
    streakUp p v = BitVec.ofNat 8 (min (v.toNat + 1) 255) := by
  rw [streakUp, h]
  by_cases hv : v = 255
  · rw [hv]
    rfl
  · have hlt : v.toNat + 1 ≤ 255 := by bv_omega
    rw [Nat.min_eq_left hlt, ofNat_toNat_succ]
    exact if_neg hv

/-- A tick whose checks pass makes one measurement and one debounce step (42_detector.md R186). -/
theorem exec_detTick_detect {s : State} (hf : s.fault = none) (hm : s.pmode = .detect)
    (hv : s.threshValid = true) (hp : s.pos.written = true) (hn : s.neg.written = true) :
    exec .detTick s = .next (debounce (s.afterMeasures 1) (s.ndAt 0)) :=
  operate_ok hf (check_eq_ok.mpr ⟨hm, check_eq_ok.mpr ⟨⟨hv, hp, hn⟩, by rw [measure_eq]⟩⟩)

/-- The positive step of the debounce (42_detector.md R186). -/
theorem debounce_positive {s : State} {nd : Nat} (h : s.thresh.toNat ≤ nd) :
    debounce s nd = { s with
      pos := ⟨streakUp s.params s.pos.val, true⟩
      neg := ⟨0, true⟩
      ind := ⟨true, true⟩
      events := .ind true :: s.events } :=
  if_pos h

/-- The negative step of the debounce: the second one in a row resets both streaks (42_detector.md R186). -/
theorem debounce_negative {s : State} {nd : Nat} (h : nd < s.thresh.toNat) (hn : s.neg.val.toNat ≤ 1) :
    debounce s nd = { s with
      pos := if s.neg.val = 1 then ⟨0, true⟩ else s.pos
      neg := if s.neg.val = 1 then ⟨0, true⟩ else ⟨1, true⟩
      ind := ⟨s.bit, true⟩
      events := .ind s.bit :: s.events
      bits := s.bits.tail
      draws := s.draws + (1 - s.bits.length) } := by
  rcases debounce_cases s nd with ⟨hle, -⟩ | ⟨-, hsecond, heq⟩ | ⟨-, hfirst, heq⟩
  · exact absurd hle (Nat.not_le.mpr h)
  · have h1 : s.neg.val = 1 := by bv_omega
    rw [heq, State.drawInd_eq, if_pos h1, if_pos h1]
    rfl
  · have h0 : s.neg.val = 0 := by bv_omega
    rw [heq, State.drawInd_eq, h0]
    rfl

/-- Settles O30: the checks in their order, then the two steps of the debounce after one measurement, which
leaves the streaks, the threshold and the bits to come as they are; the bit drawn is the one after it. -/
theorem detectionTickDebounces : Obligations.DetectionTickDebounces := by
  intro s hf
  refine ⟨rfl, fun hm => ?_, fun hm hv => ?_, fun hm hv hp hn hneg => ?_⟩
  · exact operate_records hf (check_of_false _ _ hm)
  · exact operate_records hf ((check_of_true _ _ hm).trans (check_of_false _ _ (by simp [hv])))
  · intro u
    rw [exec_detTick_detect hf hm hv hp hn]
    refine ⟨fun hpos => ?_, fun hlt => ⟨u.bit, fun _ _ => State.bit_of_given (s := u), ?_⟩⟩
    · rw [debounce_positive (s := s.afterMeasures 1) hpos, State.afterMeasures_params]
      cases ho : s.params.streakOvf with
      | wrap =>
        rw [streakUp_of_wrap ho]
        rfl
      | saturate =>
        rw [streakUp_of_saturate ho]
        rfl
    · rw [debounce_negative (s := s.afterMeasures 1) hlt hneg]
      rfl

/-! ### DET_IS_ALARM -/

theorem bitWord_alarm (s : State) : bitWord s.alarm = if 4 < s.pos.val.toNat then 1 else 0 := by
  simp [bitWord, State.alarm]

/-- Settles O31: the phase and the streak's written-attribute are checked, and ALARM is returned. -/
theorem alarmIsAboveTheTrigger : Obligations.AlarmIsAboveTheTrigger := by
  intro s hf
  refine ⟨rfl, fun hp => ?_, fun hp _ hw => ?_, fun hp _ hw => ?_⟩
  · exact operate_records hf (check_of_false _ _ hp)
  · exact operate_records hf ((check_of_true _ _ hp).trans (check_of_false _ _ (by simp [hw])))
  · rw [← bitWord_alarm]
    exact operate_ok hf (check_eq_ok.mpr ⟨hp, check_eq_ok.mpr ⟨hw, rfl⟩⟩)

/-! ### DET_CALIBRATE -/

theorem exec_detCalibrate_idle {s : State} (hf : s.fault = none) (hp : s.pphase = .idle)
    (hm : s.pmode = .off) : exec .detCalibrate s = .next (calibrate s) :=
  operate_ok hf (outsideSession_eq_ok.mpr ⟨hp, hm, rfl⟩)

/-- Settles O32: the search loop follows the relation `Search`, by `calibrate_search`, and writes its result. -/
theorem calibrationSearches : Obligations.CalibrationSearches := by
  intro s hf
  refine ⟨rfl, fun hp => ?_, fun hp hm => ?_, fun hp hm => ?_⟩
  · exact operate_records hf (outsideSession_of_active _ hp)
  · exact operate_records hf (outsideSession_of_busy _ hp hm)
  · obtain ⟨result, m, hsearch, hwrites⟩ := calibrate_search s
    refine ⟨result, m, hsearch, ?_⟩
    rw [exec_detCalibrate_idle hf hp hm, hwrites]
    cases result with
    | none => rfl
    | some t => rfl

end Sys2Proof.Machine
end

section
/-! The control operations, forward: TMR_DISARM and the two diagnostic reads (43_control.md R231 to R233). The
model's table of R58 and the independent one of the statements agree row by row. -/

namespace Sys2Proof.Machine

/-! ### TMR_DISARM -/

theorem exec_tmrDisarm_idle {s : State} (hf : s.fault = none) (hp : s.pphase = .idle)
    (hm : s.pmode = .blink ∨ s.pmode = .off) : exec .tmrDisarm s = .next (disarmBlink s) :=
  operate_ok hf (outsideSession_eq_ok.mpr ⟨hp, hm, rfl⟩)

theorem disarmBlink_of_off {s : State} (hm : s.pmode = .off) : disarmBlink s = { s with ret := none } := by
  rw [disarmBlink_eq, if_neg (by simp [hm])]

/-- The state TMR_DISARM leaves when it disarms the blink, field by field (43_control.md R231). -/
theorem disarmBlink_of_blink {s : State} (hm : s.pmode = .blink) :
    disarmBlink s = { s with
      pmode := .off
      ind := ⟨s.bit, true⟩
      events := .ind s.bit :: .timerArm .off :: s.events
      ret := none
      bits := s.bits.tail
      draws := s.draws + (1 - s.bits.length) } := by
  rw [disarmBlink_eq, if_pos hm, State.drawInd_eq]
  rfl

/-- Settles O38: the two checks in their order, then `disarmBlink`, which does something only while BLINK. -/
theorem blinkDisarms : Obligations.BlinkDisarms := by
  intro s hf
  refine ⟨rfl, fun hp => ?_, fun hp hblink hoff => ?_, fun hp hm => ?_, fun hp hm => ?_⟩
  · exact operate_records hf (outsideSession_of_active _ hp)
  · exact operate_records hf (outsideSession_of_busy _ hp (not_or.mpr ⟨hblink, hoff⟩))
  · rw [exec_tmrDisarm_idle hf hp (.inr hm), disarmBlink_of_off hm]
  · refine ⟨s.bit, fun _ _ => State.bit_of_given, ?_⟩
    rw [exec_tmrDisarm_idle hf hp (.inl hm), disarmBlink_of_blink hm]

/-! ### A read that fails -/

/-- A failing read inside an operation is recorded as 60_exceptions.md R256 says. -/
theorem operate_map_records {α : Type} {s : State} {ag : Agent} {o : Byte} {c : BlockFault}
    {k : Except BlockFault α} {f : α → State} (hf : s.fault = none) (hk : k = .error c) :
    operate s ag o (k.map f) = .next (s.faultRecorded ag o c) :=
  operate_records hf (by rw [hk]; rfl)

/-! ### READ_REG -/

/-- What reading a row of the independent table answers: its value, or UNWRITTEN where it has none
(43_control.md R232). -/
def orUnwritten : Option Word → Except BlockFault Word
  | some v => .ok v
  | none => .error .unwritten

theorem Reg.read_eq_orUnwritten (r : Reg Word) :
    r.read = orUnwritten (if r.written then some r.val else none) := by
  unfold Reg.read
  split <;> rfl

theorem Reg.read_map_eq_orUnwritten {α : Type} (r : Reg α) (f : α → Word) :
    r.read.map f = orUnwritten (if r.written then some (f r.val) else none) := by
  unfold Reg.read
  split <;> rfl

theorem derived_eq_orUnwritten (b : Bool) (v : Word) :
    derived b v = orUnwritten (if b then some v else none) := by
  cases b <;> rfl

theorem bitWord_eq_ofNat (b : Bool) : bitWord b = BitVec.ofNat 32 b.toNat := by
  cases b <;> rfl

theorem State.lowWater_eq (s : State) :
    s.lowWater = decide ((s.widx.val.toNat + 256 - s.ridx.val.toNat) % 256 ≤ 192) := by
  rw [State.lowWater, State.level, level_toNat]

/-- The model's table of 10_state.md R58 is the independent one, row by row. Once every row is written with
`orUnwritten` and LEVEL as a number, only the codes of PPHASE, RB_STATUS and PMODE and the tests of the flags are
spelled differently, and those compute alike. -/
theorem registerRows_eq (s : State) :
    registerRows s = s.registerTable.map fun row => (row.1, orUnwritten row.2) := by
  simp only [registerRows, Reg.read_map_eq_orUnwritten, Reg.read_eq_orUnwritten, derived_eq_orUnwritten,
    State.indicesWritten_iff, bitWord_eq_ofNat, ← BitVec.ofNat_toNat, State.lowWater_eq, State.level, level_toNat]
  rfl

/-- A lookup in a table whose values are mapped is the mapped lookup. -/
theorem lookup_map_snd {α β γ : Type} [BEq α] (a : α) (f : β → γ) (l : List (α × β)) :
    (l.map fun row => (row.1, f row.2)).lookup a = (l.lookup a).map f := by
  induction l with
  | nil => rfl
  | cons row l ih =>
    obtain ⟨k, v⟩ := row
    simp only [List.map_cons, List.lookup_cons, ih]
    cases a == k <;> rfl

theorem registerValue_eq (s : State) (regno : Byte) :
    registerValue s regno = ((s.registerTable.lookup regno).map orUnwritten).getD (.error .badRegno) := by
  rw [registerValue, registerRows_eq, lookup_map_snd]
  cases (s.registerTable.lookup regno).map orUnwritten <;> rfl

theorem exec_readReg_ok {s : State} {regno : Byte} {v : Word} (hf : s.fault = none)
    (hv : registerValue s regno = .ok v) : exec (.readReg regno) s = .next { s with ret := some v } :=
  operate_ok hf (by rw [hv]; rfl)

/-- Settles O39: `registerValue_eq` reads the model's table in the terms of the independent one, so the three
results of the lookup are the three outcomes. -/
theorem readRegReadsTheTable : Obligations.ReadRegReadsTheTable := by
  intro s regno hf
  refine ⟨rfl, ?_⟩
  have hval := registerValue_eq s regno
  split
  · next v hrow => exact exec_readReg_ok hf (by rw [hval, hrow]; rfl)
  · next hrow => exact operate_map_records hf (by rw [hval, hrow]; rfl)
  · next hrow => exact operate_map_records hf (by rw [hval, hrow]; rfl)

/-! ### READ_MEM -/

/-- Settles O40: the ring byte at any address, or UNWRITTEN. -/
theorem readMemReadsTheRing : Obligations.ReadMemReadsTheRing := by
  intro s addr hf
  refine ⟨rfl, fun v hv => ?_, fun hv => ?_⟩
  · rw [BitVec.ofNat_toNat]
    exact operate_map_ok hf (ringByte_eq_ok.mpr hv)
  · exact operate_map_records hf (ringByte_eq_error hv)

end Sys2Proof.Machine
end

section
/-! The end of a run (60_exceptions.md R259): once FAULT holds a record, no operation and no agent answers a next
state. -/

namespace Sys2Proof.Machine

/-- Once a fault is recorded no operation is performed. RB_WRITE tests its phase before `operate`, where it
consumes the storage answer, and that leaves FAULT as it is. -/
theorem exec_faulted (i : Instr) {s : State} {r : FaultRecord} (hf : s.fault = some r) :
    exec i s = .fault (.runEnded r) := by
  cases i
  case rbWrite =>
    have ha : s.answered.fault = some r := (State.answered_fault s).trans hf
    by_cases hp : s.pphase = .fetch
    · exact (exec_rbWrite_fetch hp).trans (operate_faulted ha)
    · exact (if_neg hp).trans (operate_faulted hf)
  all_goals exact operate_faulted hf

/-- Once a fault is recorded no agent has a turn. -/
theorem step_faulted {s : State} {r : FaultRecord} (hf : s.fault = some r) :
    step s = .fault (.runEnded r) := by
  simp [step, nextTurn, hf]

/-- Settles O12: neither a turn nor an operation goes on, and power-on records no fault. -/
theorem faultEndsTheRun : Obligations.FaultEndsTheRun :=
  ⟨fun _ _ hf => ⟨step_faulted hf, fun i => exec_faulted i hf⟩, rfl⟩

end Sys2Proof.Machine
end

section
/-! The power-on state (70_reset_and_hazards.md R300). The first reads of its unwritten elements are instances of
the statements about READ_REG and READ_MEM in any state. -/

namespace Sys2Proof.Machine

/-- The numbers of 10_state.md R58 whose register, or a register the flag is derived from, is unwritten at
power-on: the registers first, then LEVEL, EMPTY, LOW_WATER and ALARM. -/
def powerOnUnwritten : List Byte :=
  [0x00, 0x01, 0x03, 0x04, 0x05, 0x0A, 0x10, 0x12, 0x13, 0x15, 0x02, 0x0D, 0x0E, 0x14]

theorem reset_registerTable_lookup :
    ∀ n ∈ powerOnUnwritten, State.reset.registerTable.lookup n = some none := by
  decide

theorem reset_ring_read (addr : Nat) : State.reset.ring.read addr = none := rfl

/-- READ_REG of a number whose row of the independent table has no value (43_control.md R232). -/
theorem exec_readReg_unwritten {s : State} {regno : Byte} (hf : s.fault = none)
    (hrow : s.registerTable.lookup regno = some none) :
    exec (.readReg regno) s = .next (s.faultRecorded .host 0x40 .unwritten) := by
  have hread := (readRegReadsTheTable s regno hf).2
  rwa [hrow] at hread

/-- READ_MEM of a ring byte nothing has written (43_control.md R233). -/
theorem exec_readMem_unwritten {s : State} {addr : Byte} (hf : s.fault = none)
    (hbyte : s.ring.read addr.toNat = none) :
    exec (.readMem addr) s = .next (s.faultRecorded .host 0x41 .unwritten) :=
  (readMemReadsTheRing s addr hf).2.2 hbyte

/-- Settles O13: the fields are those of `State.reset`; the reads at power-on follow from what READ_REG and
READ_MEM do with an unwritten element. -/
theorem powerOnState : Obligations.PowerOnState := by
  have hregs : ∀ n ∈ powerOnUnwritten,
      exec (.readReg n) State.reset = .next (State.reset.faultRecorded .host 0x40 .unwritten) :=
    fun n hn => exec_readReg_unwritten rfl (reset_registerTable_lookup n hn)
  have hring : ∀ addr,
      exec (.readMem addr) State.reset = .next (State.reset.faultRecorded .host 0x41 .unwritten) :=
    fun addr => exec_readMem_unwritten rfl (reset_ring_read addr.toNat)
  exact ⟨reset_ring_read, rfl, rfl, rfl, rfl, rfl, rfl, rfl, rfl, rfl, rfl, rfl, rfl, rfl, rfl, rfl, rfl, rfl,
    rfl, rfl, rfl, hregs, hring⟩

end Sys2Proof.Machine
end

section
/-! Decoding and encoding (30_encoding.md sections 1 to 5): the header of an instruction passes the checks and its
operands are assembled back, and a header that passes them, with its operand words there, is that of an instruction.
The round trips, the exact acceptance set and the agent check follow. -/

namespace Sys2Proof

/-! ### From an instruction to its words -/

/-- The 8-bit operand of an instruction, 0 where it has none (30_encoding.md R111, R114). -/
def Instr.operand : Instr → Byte
  | .readReg regno => regno
  | .readMem addr => addr
  | _ => 0

/-- The code and the operand that `encode` writes pass the header checks (30_encoding.md R116 to R118). -/
theorem Instr.header_legal (i : Instr) :
    legalOpcode i.opcode = true ∧ (takesA8 i.opcode = true ∨ i.operand = 0) := by
  cases i
  case readReg => exact ⟨rfl, .inl rfl⟩
  case readMem => exact ⟨rfl, .inl rfl⟩
  all_goals exact ⟨rfl, .inr rfl⟩

/-- The words of an instruction, first word apart: the header of its code, and words from which the operands are
assembled back. -/
theorem encode_append (i : Instr) (rest : List Word) :
    ∃ more, encode i ++ rest = headerWord i.opcode i.operand :: more ∧
      assemble (headerWord i.opcode i.operand) more = .ok (i, rest) := by
  cases i
  case playStart startBlock byteSize => exact ⟨_, rfl, assemble_playStart startBlock byteSize rest⟩
  all_goals exact ⟨rest, rfl, assemble_oneWord rest (by simp [Instr.opcode]) rfl⟩

theorem headerFault_header (i : Instr) : headerFault (headerWord i.opcode i.operand) = none :=
  headerFault_headerWord i.header_legal.1 i.header_legal.2

/-- Decoding for any agent the words of an instruction: the agent check alone decides (30_encoding.md R120). -/
theorem decodeFor_encode (ag : Agent) (i : Instr) (rest : List Word) :
    decodeFor ag (encode i ++ rest) = if i.agent = ag then .ok (i, rest) else .error .wrongAgent := by
  obtain ⟨more, hwords, hback⟩ := encode_append i rest
  rw [hwords, decodeFor_cons, headerFault_header, opcOf_headerWord, hback]
  rfl

/-- Settles O1: the header passes the checks, and `encode_append` assembles the operands back. -/
theorem decodeOfEncode : Obligations.DecodeOfEncode := by
  intro i rest
  refine ⟨?_, (decodeFor_encode i.agent i rest).trans (if_pos rfl)⟩
  obtain ⟨more, hwords, hback⟩ := encode_append i rest
  rw [hwords, decode_cons, headerFault_header]
  exact hback

/-- Settles O7: four families by the round trip, the two refusals by the first header check that fails. -/
theorem sampleWordsDecode : Obligations.SampleWordsDecode :=
  ⟨(decodeOfEncode (.playStart 7 40) []).1, (decodeOfEncode .audioTick []).1, (decodeOfEncode .detCalibrate []).1,
    (decodeOfEncode .tmrDisarm []).1, (decodeOfEncode (.readReg 0x10) []).1, (decodeOfEncode (.readMem 0xF1) []).1,
    by rw [decode_cons, headerFault_of_illegal (by decide)],
    by rw [decode_cons, headerFault_of_reserved (by decide) (.inl (by decide))]⟩

/-! ### From words to an instruction -/

/-- What `assemble` makes of a header that passed its checks is an instruction whose encoding the words begin
with. -/
theorem assemble_eq_ok {w : Word} {more rest : List Word} {i : Instr} (hw : headerFault w = none)
    (h : assemble w more = .ok (i, rest)) : w :: more = encode i ++ rest ∧ i.opcode = opcOf w := by
  obtain ⟨-, hrsv, ha8⟩ := headerFault_eq_none.mp hw
  have hfields := headerWord_fields hrsv
  unfold assemble at h
  split at h
  · next hstart =>
    split at h
    · next startBlock byteSize _ =>
      cases h
      have ha : a8Of w = 0 := ha8.resolve_left (by rw [hstart]; decide)
      rw [← hfields, hstart, ha, opcOf_headerWord]
      exact ⟨rfl, rfl⟩
    · cases h
  · split at h
    · next j hj =>
      cases h
      obtain ⟨hop, henc⟩ := oneWordInstr_eq_some hj
      refine ⟨?_, hop⟩
      rw [henc]
      rcases ha8 with ht | ha
      · rw [if_pos ht, hfields, List.singleton_append]
      · rw [ha, ite_self, ← ha, hfields, List.singleton_append]
    · cases h

/-- Settles O2: the header checks leave no bit of the header free, and operand words are taken whole. -/
theorem encodeOfDecode : Obligations.EncodeOfDecode := by
  intro ws rest i h
  cases ws with
  | nil => cases h
  | cons w more =>
    rw [decode_cons] at h
    split at h
    · cases h
    · next hw => exact (assemble_eq_ok hw h).1

/-- A header that passes the checks, with the words R113 asks for, is that of an instruction, and the words after
them are left. -/
theorem assemble_present {w : Word} {more : List Word} (hw : headerFault w = none)
    (hlen : commandWords w ≤ more.length + 1) :
    ∃ i, assemble w more = .ok (i, (w :: more).drop (commandWords w)) ∧ i.opcode = opcOf w := by
  have hasm : ∃ i, assemble w more = .ok (i, (w :: more).drop (commandWords w)) := by
    by_cases hstart : opcOf w = 0x01
    · rw [commandWords, if_pos hstart] at hlen ⊢
      match more, hlen with
      | startBlock :: byteSize :: rest, _ => exact ⟨.playStart startBlock byteSize, if_pos hstart⟩
    · obtain ⟨i, hi⟩ := oneWordInstr_isSome (a8Of w) (headerFault_eq_none.mp hw).1 hstart
      rw [commandWords, if_neg hstart]
      exact ⟨i, (if_neg hstart).trans (by rw [hi]; rfl)⟩
  obtain ⟨i, hi⟩ := hasm
  exact ⟨i, hi, (assemble_eq_ok hw hi).2⟩

/-! ### Well-formed commands -/

theorem encode_wf (i : Instr) : Command.wf (encode i) = true := by
  have h : Laws.EncodeWf.Statement i := by
    cases i with
    | playStart startBlock byteSize => exact Laws.EncodeWf.playStart startBlock byteSize
    | rbPoll => exact Laws.EncodeWf.rbPoll
    | rbWrite => exact Laws.EncodeWf.rbWrite
    | rbCommit => exact Laws.EncodeWf.rbCommit
    | rbDrain => exact Laws.EncodeWf.rbDrain
    | audioTick => exact Laws.EncodeWf.audioTick
    | detMeasure => exact Laws.EncodeWf.detMeasure
    | detGetAvg => exact Laws.EncodeWf.detGetAvg
    | detStart => exact Laws.EncodeWf.detStart
    | detStop => exact Laws.EncodeWf.detStop
    | detTick => exact Laws.EncodeWf.detTick
    | detIsAlarm => exact Laws.EncodeWf.detIsAlarm
    | detCalibrate => exact Laws.EncodeWf.detCalibrate
    | tmrArmBlink => exact Laws.EncodeWf.tmrArmBlink
    | tmrDisarm => exact Laws.EncodeWf.tmrDisarm
    | readReg regno => exact Laws.EncodeWf.readReg regno
    | readMem addr => exact Laws.EncodeWf.readMem addr
  exact h.1

theorem reservedOk_iff (w : Word) : Command.reservedOk w = true ↔ rsvOf w = 0 := by
  rw [Command.reservedOk, ← rsvOf_eq_extract, beq_iff_eq]

theorem operandOk_iff (w : Word) : Command.operandOk w = true ↔ takesA8 (opcOf w) = true ∨ a8Of w = 0 := by
  rw [Command.operandOk, ← opcOf_eq_extract, ← a8Of_eq_extract, Bool.or_eq_true, beq_iff_eq, takesA8]

/-- The decoder's header checks are those of a well-formed command (30_encoding.md R117, R118). -/
theorem headerFault_eq_none_iff (w : Word) :
    headerFault w = none ↔
      Command.opcodeOk w = true ∧ Command.reservedOk w = true ∧ Command.operandOk w = true := by
  rw [headerFault_eq_none, reservedOk_iff, operandOk_iff, Command.opcodeOk, codes_contains_extract]

/-- The length of R113 is as many operand words as the header asks for. -/
theorem lengthOk_iff (w : Word) (operands : List Word) :
    Command.lengthOk w operands = true ↔ commandWords w = operands.length + 1 := by
  rw [Command.lengthOk, ← opcOf_eq_extract, beq_iff_eq, commandWords]
  by_cases h : opcOf w = 0x01
  · rw [if_pos h, if_pos h]
    omega
  · rw [if_neg h, if_neg h]
    omega

/-- Settles O3: what decodes is an encoding, and encodings are well formed; a well-formed command passes the header
checks and has exactly its operand words. -/
theorem decodeAcceptsWellFormedCommands : Obligations.DecodeAcceptsWellFormedCommands := by
  intro ws
  constructor
  · rintro ⟨i, hi⟩
    rw [encodeOfDecode ws [] i hi, List.append_nil]
    exact encode_wf i
  · intro h
    cases ws with
    | nil => cases h
    | cons w operands =>
      simp only [Command.wf, Bool.and_eq_true] at h
      obtain ⟨⟨⟨hop, hrsv⟩, ha8⟩, hlen⟩ := h
      have hw : headerFault w = none := (headerFault_eq_none_iff w).mpr ⟨hop, hrsv, ha8⟩
      have hwords : commandWords w = operands.length + 1 := (lengthOk_iff w operands).mp hlen
      obtain ⟨i, hi, -⟩ := assemble_present hw hwords.le
      refine ⟨i, ?_⟩
      rw [decode_cons, hw, hi, hwords, List.drop_of_length_le (by simp)]

namespace Machine

/-! ### The agent check -/

/-- The TIMER issues the two ticks, the HOST every other operation (30_encoding.md R119). -/
theorem agent_eq_timer_iff (i : Instr) : i.agent = .timer ↔ i = .audioTick ∨ i = .detTick := by
  cases i <;> simp [Instr.agent, Instr.opcode, agentOfOpcode]

/-- Settles O6: the header passes the checks before the agent check, which fails. -/
theorem wrongPortFaults : Obligations.WrongPortFaults := by
  intro ag i rest s _ hag
  have hwrong : i.agent ≠ ag := by
    split at hag
    · next hi =>
      rw [hag, (agent_eq_timer_iff i).mpr hi]
      exact nofun
    · next hi =>
      rw [hag]
      exact mt (agent_eq_timer_iff i).mp hi
  have hd := (decodeFor_encode ag i rest).trans (if_neg hwrong)
  obtain ⟨more, hwords, -⟩ := encode_append i rest
  have ho : headOpcode (encode i ++ rest) = i.opcode := by rw [hwords, headOpcode, opcOf_headerWord]
  simp only [perform, hd, decodeBlockFault, ho, State.raise_eq_faultRecorded]

end Machine
end Sys2Proof
end

section
/-! The turn of an agent, forward (60_exceptions.md R264): what it does with a command that decodes, with one that
does not, with none, and with no choice of agent given. -/

namespace Sys2Proof.Machine

/-! ### A command at a port -/

/-- Words that decode are performed. -/
theorem perform_of_decode {ag : Agent} {words rest : List Word} {i : Instr} (s : State)
    (h : decodeFor ag words = .ok (i, rest)) : perform ag words s = exec i s := by
  rw [perform, h]

/-- What follows an operation whose command leaves its port: the words after the command stay. -/
theorem afterNext_congr {o : Host.Outcome State Fault Refusal} {f g : State → State}
    (h : ∀ t, o = .next t → f t = g t) : afterNext o f = afterNext o g := by
  cases o with
  | next t => exact congrArg Host.Outcome.next (h t rfl)
  | fault r => rfl
  | refused r => rfl

/-- Only an RB_DRAIN holds (00_scope.md R15). -/
theorem hostHolds_of_decode {s : State} {i : Instr} {rest : List Word}
    (h : decodeFor .host s.hostPort = .ok (i, rest)) : hostHolds s = (decide (i = .rbDrain) && drainHolds s) := by
  rw [hostHolds, h]

theorem drainHolds_iff (s : State) :
    drainHolds s = true ↔
      s.pphase = .drain ∧ s.widx.written = true ∧ s.ridx.written = true ∧ s.ridx.val ≠ s.widx.val := by
  simp [drainHolds, State.indicesWritten_iff, State.empty_eq_false_iff, and_assoc]

/-- The HOST's turn on a command that decodes: it is performed, and leaves the port unless it is a drain that
holds. -/
theorem hostTurn_of_decode {s : State} {i : Instr} {rest : List Word}
    (h : decodeFor .host s.hostPort = .ok (i, rest)) :
    hostTurn s = afterNext (exec i s) fun t =>
      if i = .rbDrain ∧ drainHolds s = true then t else { t with hostPort := rest } := by
  obtain ⟨hpresent, hdrop⟩ := decodeFor_ok h
  rw [hostTurn, if_pos hpresent, perform_of_decode s h, hostHolds_of_decode h]
  refine afterNext_congr fun t ht => ?_
  rw [(exec_ports ht).1, hdrop]
  simp only [Bool.and_eq_true, decide_eq_true_eq]

/-- The TIMER's turn on a command presented from outside that decodes (log 9). -/
theorem timerTurn_of_decode {s : State} {i : Instr} {rest : List Word}
    (h : decodeFor .timer s.timerPort = .ok (i, rest)) :
    timerTurn s = afterNext (exec i s) fun t => { t with timerPort := rest } := by
  obtain ⟨hpresent, hdrop⟩ := decodeFor_ok h
  rw [timerTurn, if_pos hpresent, perform_of_decode s h]
  refine afterNext_congr fun t ht => ?_
  rw [(exec_ports ht).2.1, hdrop]

theorem hostTurn_of_absent {s : State} (h : commandPresent s.hostPort = false) : hostTurn s = .next s :=
  if_neg (by simp [h])

/-- Settles O8: `hostTurn_of_decode` in the state whose turn is spent. -/
theorem stepRunsDecodedHostCommand : Obligations.StepRunsDecodedHostCommand := by
  intro s more hf ht
  refine ⟨fun i rest hd => ?_, fun habsent => ?_⟩
  · rw [step_given hf (State.runOver_of_host (decodeFor_ok hd).1) ht]
    refine (hostTurn_of_decode (s := { s with turns := more }) hd).trans ?_
    simp only [drainHolds_iff]
    cases exec i { s with turns := more } <;> rfl
  · cases hover : s.runOver with
    | true => exact step_runOver hf hover
    | false =>
      rw [step_given hf hover ht]
      exact hostTurn_of_absent (s := { s with turns := more }) habsent

/-- Settles O9: `timerTurn_of_decode` in the state whose turn is spent. -/
theorem stepRunsDecodedTimerCommand : Obligations.StepRunsDecodedTimerCommand := by
  intro s i rest more hf ht hd
  rw [step_given hf (State.runOver_of_timer (decodeFor_ok hd).1) ht]
  refine (timerTurn_of_decode (s := { s with turns := more }) hd).trans ?_
  cases exec i { s with turns := more } <;> rfl

/-! ### The TIMER's own tick -/

/-- The words of a tick, presented by the TIMER, are performed (60_exceptions.md R260). -/
theorem perform_encode (i : Instr) (s : State) : perform i.agent (encode i) s = exec i s := by
  have hd := (decodeOfEncode i []).2
  rw [List.append_nil] at hd
  exact perform_of_decode s hd

theorem timerTurn_audio {s : State} (h : commandPresent s.timerPort = false) (hm : s.pmode = .audio) :
    timerTurn s = exec .audioTick s := by
  rw [timerTurn, if_neg (by simp [h]), hm]
  exact perform_encode .audioTick s

theorem timerTurn_detect {s : State} (h : commandPresent s.timerPort = false) (hm : s.pmode = .detect) :
    timerTurn s = exec .detTick s := by
  rw [timerTurn, if_neg (by simp [h]), hm]
  exact perform_encode .detTick s

theorem timerTurn_blink {s : State} (h : commandPresent s.timerPort = false) (hm : s.pmode = .blink) :
    timerTurn s = .next s.drawInd := by
  rw [timerTurn, if_neg (by simp [h]), hm]

theorem timerTurn_off {s : State} (h : commandPresent s.timerPort = false) (hm : s.pmode = .off) :
    timerTurn s = .next s := by
  rw [timerTurn, if_neg (by simp [h]), hm]

/-- A run is not over while a tick is armed (70_reset_and_hazards.md R322). -/
theorem State.runOver_of_armed {s : State} (h : s.pmode = .audio ∨ s.pmode = .detect) : s.runOver = false := by
  rcases h with h | h <;> simp [State.runOver, h]

/-- Settles O10: the TIMER's turn under each purpose, in the state whose turn is spent. -/
theorem stepRunsTimerTick : Obligations.StepRunsTimerTick := by
  intro s more hf ht habsent
  refine ⟨fun hm => ?_, fun hm => ?_, fun hm hhost => ⟨s.bit, fun _ _ => State.bit_of_given, ?_⟩,
    fun hm hhost => ?_⟩
  · rw [step_given hf (State.runOver_of_armed (.inl hm)) ht]
    exact timerTurn_audio (s := { s with turns := more }) habsent hm
  · rw [step_given hf (State.runOver_of_armed (.inr hm)) ht]
    exact timerTurn_detect (s := { s with turns := more }) habsent hm
  · rw [step_given hf (State.runOver_of_host hhost) ht]
    refine (timerTurn_blink (s := { s with turns := more }) habsent hm).trans ?_
    rw [State.drawInd_eq]
    rfl
  · rw [step_given hf (State.runOver_of_host hhost) ht]
    exact timerTurn_off (s := { s with turns := more }) habsent hm

/-! ### No choice of agent given -/

theorem timerReady_iff {s : State} (h : commandPresent s.timerPort = false) :
    timerReady s = true ↔ s.pmode = .audio ∨ s.pmode = .detect := by
  simp [timerReady, h]

/-- With no choice given and no command of the HOST, a ready TIMER moves (60_exceptions.md R264). -/
theorem step_of_timer_only {s : State} (hf : s.fault = none) (ht : s.turns = [])
    (hhost : commandPresent s.hostPort = false) (htimer : commandPresent s.timerPort = false)
    (hm : s.pmode = .audio ∨ s.pmode = .detect) : step s = timerTurn s := by
  rw [step_turn hf (State.runOver_of_armed hm)]
  simp [chooseAgent, ht, hostReady, hhost, (timerReady_iff htimer).mpr hm, agentTurn]

/-- With no choice given and no agent ready, the block waits (70_reset_and_hazards.md R301). -/
theorem step_of_none_ready {s : State} (hf : s.fault = none) (ht : s.turns = [])
    (hhost : commandPresent s.hostPort = false) (htimer : commandPresent s.timerPort = false)
    (hm : s.pmode = .off ∨ s.pmode = .blink) : step s = .next s := by
  have hready : timerReady s = false :=
    Bool.eq_false_iff.mpr (mt (timerReady_iff htimer).mp (by rcases hm with h | h <;> simp [h]))
  cases hover : s.runOver with
  | true => exact step_runOver hf hover
  | false =>
    rw [step_turn hf hover]
    simp [chooseAgent, ht, hostReady, hhost, hready, agentTurn, hostTurn]

/-- With no choice given and a command of the HOST, the turn is the HOST's, or free where the TIMER may move too
(60_exceptions.md R264, log 7, log 15). -/
theorem chooseAgent_of_host {s : State} (ht : s.turns = []) (hhost : commandPresent s.hostPort = true)
    (htimer : commandPresent s.timerPort = false) :
    chooseAgent s =
      if s.pmode = .off then (.host, s) else (Config.freeAgent s.draws, { s with draws := s.draws + 1 }) := by
  cases hm : s.pmode <;> simp [chooseAgent, ht, hostReady, hhost, timerReady, htimer, hm]

/-- A turn given to an agent in a run that goes on, from a state with no other turn given. -/
theorem step_single_turn {s : State} (ag : Agent) (hf : s.fault = none) (ht : s.turns = [])
    (hhost : commandPresent s.hostPort = true) : step { s with turns := [ag] } = agentTurn ag s := by
  have hover : State.runOver { s with turns := [ag] } = false := State.runOver_of_host hhost
  rw [step_given (s := { s with turns := [ag] }) hf hover rfl, ← ht]

/-- Settles O11: the branches of `chooseAgent` where no choice is given. -/
theorem stepChoosesTheReadyAgent : Obligations.StepChoosesTheReadyAgent := by
  intro s hf ht htimer
  refine ⟨fun hhost => ⟨fun hm => ?_, fun hm => ?_, step_of_none_ready hf ht hhost htimer⟩,
    fun hhost => ⟨fun hm => ?_, fun hm => ?_⟩⟩
  · rw [step_of_timer_only hf ht hhost htimer (.inl hm), timerTurn_audio htimer hm]
  · rw [step_of_timer_only hf ht hhost htimer (.inr hm), timerTurn_detect htimer hm]
  · rw [step_turn hf (State.runOver_of_host hhost), chooseAgent_of_host ht hhost htimer, if_pos hm,
      step_single_turn .host hf ht hhost]
  · have hfree (ag : Agent) : step { s with turns := [ag], draws := s.draws + 1 } =
        agentTurn ag { s with draws := s.draws + 1 } :=
      step_single_turn (s := { s with draws := s.draws + 1 }) ag hf ht hhost
    rw [step_turn hf (State.runOver_of_host hhost), chooseAgent_of_host ht hhost htimer, if_neg hm, hfree, hfree]
    cases Config.freeAgent s.draws with
    | host => exact .inl rfl
    | timer => exact .inr rfl

/-! ### Headers that fail a check -/

/-- The statement's header checks and the decoder's agree, the agent check being the last (30_encoding.md R120). -/
theorem headerCheck_eq (ag : Agent) (w : Word) :
    headerCheck ag w = match headerFault w with
      | some f => decodeBlockFault f
      | none => if agentOfOpcode (opcOf w) = ag then none else some .wrongAgent := by
  simp only [headerCheck]
  split
  · next hop =>
    rw [headerFault_of_illegal ((codes_contains_extract w).symm.trans hop)]
    rfl
  next hop =>
  split
  · next hbits =>
    rw [← Bool.not_eq_true, ← Bool.not_eq_true, reservedOk_iff, operandOk_iff, not_or, Bool.not_eq_true] at hbits
    rw [headerFault_of_reserved ((codes_contains_extract w).symm.trans (Bool.not_eq_false _ ▸ hop)) hbits]
    rfl
  · next hbits =>
    rw [not_or, Bool.not_eq_false, Bool.not_eq_false] at hbits
    rw [(headerFault_eq_none_iff w).mpr ⟨Bool.not_eq_false _ ▸ hop, hbits⟩, opcOf_eq_extract, agentOfOpcode]
    by_cases htick : w.extractLsb' 24 8 = 0x10 ∨ w.extractLsb' 24 8 = 0x24 <;> cases ag <;>
      simp only [htick, true_and, false_and, not_true_eq_false, not_false_eq_true, or_false, or_true, reduceCtorEq,
        if_true, if_false]

/-- The header checks of R120 name one of the three decode faults, each of which is a block fault. -/
theorem decodeBlockFault_of_headerFault {w : Word} {f : DecodeFault} (h : headerFault w = some f) :
    decodeBlockFault f ≠ none := by
  unfold headerFault at h
  split at h
  · cases h
    exact nofun
  · split at h
    · cases h
      exact nofun
    · split at h
      · cases h
        exact nofun
      · cases h

/-- A header that fails a check does not decode, and its decode fault is the block fault of the check. -/
theorem decodeFor_of_headerCheck {ag : Agent} {w : Word} {code : BlockFault} (rest : List Word)
    (h : headerCheck ag w = some code) :
    ∃ f, decodeFor ag (w :: rest) = .error f ∧ decodeBlockFault f = some code := by
  rw [headerCheck_eq] at h
  rw [decodeFor_cons]
  cases hw : headerFault w with
  | some f => exact ⟨f, rfl, by rwa [hw] at h⟩
  | none =>
    rw [hw] at h
    by_cases hag : agentOfOpcode (opcOf w) = ag
    · simp [hag] at h
    · exact ⟨.wrongAgent, if_neg hag, by rwa [if_neg hag] at h⟩

/-- A header that passes the checks decodes, its operand words being there. -/
theorem decodeFor_of_headerCheck_none {ag : Agent} {w : Word} {rest : List Word} (h : headerCheck ag w = none)
    (hlen : commandWords w ≤ rest.length + 1) :
    ∃ i, decodeFor ag (w :: rest) = .ok (i, (w :: rest).drop (commandWords w)) ∧ i.opcode = opcOf w ∧
      i.agent = ag := by
  rw [headerCheck_eq] at h
  cases hw : headerFault w with
  | some f =>
    rw [hw] at h
    exact absurd h (decodeBlockFault_of_headerFault hw)
  | none =>
    rw [hw] at h
    have hag : agentOfOpcode (opcOf w) = ag := by
      by_contra hne
      simp [hne] at h
    obtain ⟨i, hi, hop⟩ := assemble_present hw hlen
    refine ⟨i, ?_, hop, by rw [Instr.agent, hop, hag]⟩
    rw [decodeFor_cons, hw, ← hi]
    exact if_pos hag

/-- The turn of an agent whose command does not decode: the fault is recorded and the command's words are taken
from the port (60_exceptions.md R256). -/
theorem agentTurn_of_decodeFault {ag : Agent} {s : State} {words : List Word} {f : DecodeFault} {code : BlockFault}
    (hport : s.port ag = words) (hpresent : commandPresent words = true)
    (hd : decodeFor ag words = .error f) (hc : decodeBlockFault f = some code) :
    agentTurn ag s =
      .next ((s.faultRecorded ag (headOpcode words) code).withPort ag (dropCommand words)) := by
  subst hport
  have hp : perform ag (s.port ag) s = .next (s.faultRecorded ag (headOpcode (s.port ag)) code) := by
    simp only [perform, hd, hc, State.raise_eq_faultRecorded]
  cases ag with
  | host =>
    have hholds : hostHolds s = false := by
      have hd' : decodeFor .host s.hostPort = .error f := hd
      rw [hostHolds, hd']
    show hostTurn s = _
    refine (if_pos hpresent).trans ?_
    rw [hholds]
    exact congrArg (afterNext · _) hp
  | timer =>
    show timerTurn s = _
    refine (if_pos hpresent).trans ?_
    exact congrArg (afterNext · _) hp

theorem State.runOver_of_port {s : State} {ag : Agent} (h : commandPresent (s.port ag) = true) :
    s.runOver = false := by
  cases ag with
  | host => exact State.runOver_of_host h
  | timer => exact State.runOver_of_timer h

/-- Settles O57: `headerCheck_eq` reads the statement's checks as the decoder's, and a failing one is the turn of
`agentTurn_of_decodeFault`. -/
theorem stepRecordsDecodeFaults : Obligations.StepRecordsDecodeFaults := by
  intro ag s more w rest hf ht hport opc length hlen
  have hwords : commandWords w = length := by rw [commandWords, opcOf_eq_extract]
  rw [← hwords] at hlen ⊢
  have hpresent : commandPresent (w :: rest) = true := decide_eq_true hlen
  cases hcheck : headerCheck ag w with
  | some code =>
    obtain ⟨f, hd, hc⟩ := decodeFor_of_headerCheck rest hcheck
    show step s = _
    rw [step_given hf (State.runOver_of_port (ag := ag) (by rwa [hport])) ht]
    have hturn := agentTurn_of_decodeFault (s := { s with turns := more }) (ag := ag) (by cases ag <;> exact hport)
      hpresent hd hc
    rwa [headOpcode, opcOf_eq_extract] at hturn
  | none =>
    obtain ⟨i, hd, hop, hag⟩ := decodeFor_of_headerCheck_none hcheck hlen
    exact ⟨i, hd, hop.trans (opcOf_eq_extract w), hag⟩

end Sys2Proof.Machine
end

section
/-! Everything an operation can do, as one relation with a constructor per outcome and the next state written out.
What every operation keeps, and which operation writes what, follows by cases on it. -/

namespace Sys2Proof.Machine

/-- The state RB_WRITE leaves when it has received `bytes` (41_audio_stream.md R145). -/
def storeChunk (s : State) (n : Nat) (bytes : List Byte) : State :=
  { s.answered with
    ring := s.ring.writeBytes s.widx.val bytes
    pend := BitVec.ofNat 6 n
    pphase := .commit
    ret := none }

/-- `Move s i t`: performing `i` in `s` may leave `t`. One constructor per branch of 41_audio_stream.md R143 to
R148, 42_detector.md R182 to R188 and 43_control.md R230 to R233, under the checks that lead to it. -/
inductive Move (s : State) : Instr → State → Prop
  | fault (i : Instr) (c : BlockFault) : Move s i (s.raise i.agent i.opcode c)
  | writeFaults (c : BlockFault) : s.pphase = .fetch → Move s .rbWrite (s.answered.raise .host 0x03 c)
  | opens (startBlock byteSize : Word) : s.pphase = .idle → s.pmode = .off →
      Move s (.playStart startBlock byteSize) (openSession startBlock byteSize s)
  | pollEnds : s.pphase = .refill → s.target.val ≤ s.bread.val → Move s .rbPoll
      { s with pphase := .drain, ret := some (s.level.setWidth 32), events := .storageStop :: s.events }
  | pollRequests : s.pphase = .refill → s.level.toNat ≤ 192 → Move s .rbPoll
      { s with
        pphase := .fetch
        ret := some (s.level.setWidth 32)
        events := .storageRead 32 s.widx.val :: s.events }
  | pollWaits : s.pphase = .refill → Move s .rbPoll { s with ret := some (s.level.setWidth 32) }
  | writeAborts (code : Byte) : s.pphase = .fetch → s.answer = .err code → code.toNat ≤ 5 →
      Move s .rbWrite { { s.answered with rbErr := code }.teardown .aborted with ret := none }
  | writeStores (n : Nat) (bytes : List Byte) : s.pphase = .fetch → s.answer = .ok n bytes → n ≤ 32 →
      bytes.length = n → Move s .rbWrite (storeChunk s n bytes)
  | commits : s.pphase = .commit → s.level.toNat + s.pend.toNat ≤ 255 → Move s .rbCommit (publish s)
  | drainHolds : s.pphase = .drain → s.empty = false → Move s .rbDrain s
  | drainEnds : s.pphase = .drain → s.empty = true → Move s .rbDrain (endSession s)
  | tickIdles : s.pmode = .audio → s.empty = true → Move s .audioTick s
  | tickPlays (v : Byte) : s.pmode = .audio → s.empty = false → nextSample s = .ok v →
      Move s .audioTick (playSample s v)
  | measures (r : Option Word) : s.pphase = .idle → s.pmode = .off ∨ s.pmode = .blink →
      Move s .detMeasure { s.afterMeasures 1 with ret := r }
  | averages (r : Option Word) : s.pphase = .idle → s.pmode = .off ∨ s.pmode = .blink →
      Move s .detGetAvg { s.sensed 16 s.emit (s.readEvents 0 16) with ret := r }
  | detects : s.pphase = .idle → s.pmode = .off → Move s .detStart (startDetect s)
  | detectStops : s.pphase = .idle → s.pmode = .detect → Move s .detStop { s.disarm.drawInd with ret := none }
  | offStops : s.pphase = .idle → s.pmode = .off → Move s .detStop { s.drawInd with ret := none }
  | tickHits : s.pmode = .detect → Move s .detTick
      { s.afterMeasures 1 with
        pos := Reg.put (streakUp s.params s.pos.val)
        neg := Reg.put 0
        ind := Reg.put true
        events := .ind true :: (s.afterMeasures 1).events }
  | tickResets : s.pmode = .detect → Move s .detTick
      { s.afterMeasures 1 with pos := Reg.put 0, neg := Reg.put 0 }.drawInd
  | tickMisses : s.pmode = .detect → s.pos.written = true → (s.neg.val + 1).toNat ≠ 2 → Move s .detTick
      { s.afterMeasures 1 with neg := Reg.put (s.neg.val + 1) }.drawInd
  | tellsAlarm (r : Option Word) : s.pphase = .idle → Move s .detIsAlarm { s with ret := r }
  | calibrationFails (m : Nat) : s.pphase = .idle → s.pmode = .off → Move s .detCalibrate
      { s.afterMeasures m with detErr := 6, ret := some 0 }
  | calibrates (m t : Nat) : s.pphase = .idle → s.pmode = .off → Move s .detCalibrate
      { s.afterMeasures m with thresh := BitVec.ofNat 16 t, threshValid := true, ret := some 1 }
  | blinks : s.pphase = .idle → s.pmode = .off → Move s .tmrArmBlink (armBlink s)
  | blinkDisarms : s.pphase = .idle → s.pmode = .blink → Move s .tmrDisarm { s.disarm.drawInd with ret := none }
  | offDisarms : s.pphase = .idle → s.pmode = .off → Move s .tmrDisarm { s with ret := none }
  | readsReg (regno : Byte) (r : Option Word) : Move s (.readReg regno) { s with ret := r }
  | readsMem (addr : Byte) (r : Option Word) : Move s (.readMem addr) { s with ret := r }

/-- `Effect`, branch by branch. -/
theorem move_of_effect {i : Instr} {s t : State} (h : Effect s t i) : Move s i t := by
  cases i <;> simp only [Effect] at h
  case playStart =>
    obtain ⟨hp, hm, rfl⟩ := h
    exact .opens _ _ hp hm
  case rbPoll =>
    obtain ⟨hp, rfl⟩ := h
    rcases pollEffect_cases s with ⟨ht, h⟩ | ⟨-, hlow, h⟩ | ⟨-, -, h⟩ <;> rw [h]
    · exact .pollEnds hp ht
    · exact .pollRequests hp hlow
    · exact .pollWaits hp
  case rbWrite =>
    obtain ⟨hp, ha, h⟩ := h
    rcases receive_eq_ok h with ⟨code, hr, rfl⟩ | ⟨n, bytes, hr, -, rfl⟩ <;> rw [hr] at ha
    · exact .writeAborts code hp hr (answerOk_err_iff.mp ha).2
    · exact .writeStores n bytes hp hr (answerOk_ok_iff.mp ha).1 (answerOk_ok_iff.mp ha).2
  case rbCommit =>
    obtain ⟨hp, hfits, rfl⟩ := h
    exact .commits hp hfits
  case rbDrain =>
    obtain ⟨hp, ⟨he, rfl⟩ | ⟨he, rfl⟩⟩ := h
    · exact .drainHolds hp he
    · exact .drainEnds hp he
  case audioTick =>
    obtain ⟨hm, ⟨he, rfl⟩ | ⟨he, v, hv, rfl⟩⟩ := h
    · exact .tickIdles hm he
    · exact .tickPlays v hm he hv
  case detMeasure =>
    obtain ⟨hp, hm, r, rfl⟩ := h
    exact .measures r hp hm
  case detGetAvg =>
    obtain ⟨hp, hm, rfl⟩ := h
    exact .averages _ hp hm
  case detStart =>
    obtain ⟨hp, hm, rfl⟩ := h
    exact .detects hp hm
  case detStop =>
    obtain ⟨hp, hm | hm, rfl⟩ := h <;> rw [stopDetect_eq]
    · rw [if_pos hm]
      exact .detectStops hp hm
    · rw [if_neg (by simp [hm])]
      exact .offStops hp hm
  case detTick =>
    obtain ⟨hm, -, hpos, -, rfl⟩ := h
    rcases debounce_cases (s.afterMeasures 1) (s.ndAt 0) with ⟨-, h⟩ | ⟨-, -, h⟩ | ⟨-, hn, h⟩ <;> rw [h]
    · exact .tickHits hm
    · exact .tickResets hm
    · exact .tickMisses hm hpos hn
  case detIsAlarm =>
    obtain ⟨hp, -, rfl⟩ := h
    exact .tellsAlarm _ hp
  case detCalibrate =>
    obtain ⟨hp, hm, m, result, rfl⟩ := h
    cases result with
    | none => exact .calibrationFails m hp hm
    | some t => exact .calibrates m t hp hm
  case tmrArmBlink =>
    obtain ⟨hp, hm, rfl⟩ := h
    exact .blinks hp hm
  case tmrDisarm =>
    obtain ⟨hp, hm | hm, rfl⟩ := h
    · rw [disarmBlink_eq, if_pos hm]
      exact .blinkDisarms hp hm
    · rw [disarmBlink_of_off hm]
      exact .offDisarms hp hm
  case readReg =>
    obtain ⟨v, -, rfl⟩ := h
    exact .readsReg _ _
  case readMem =>
    obtain ⟨v, -, rfl⟩ := h
    exact .readsMem _ _

/-- An operation that answers a next state makes one of the moves. -/
theorem exec_move {i : Instr} {s t : State} (h : exec i s = .next t) : Move s i t := by
  rcases exec_next h with ⟨c, rfl⟩ | ⟨rfl, hp, c, rfl⟩ | h
  · exact .fault i c
  · exact .writeFaults c hp
  · exact move_of_effect h

/-! ### Faults -/

/-- A move records a fault of the operation itself, with or without a storage answer consumed, or leaves FAULT as
it is (60_exceptions.md R256). -/
theorem Move.fault_cases {i : Instr} {s t : State} (h : Move s i t) :
    (∃ c, t = s.raise i.agent i.opcode c) ∨
      (i = .rbWrite ∧ s.pphase = .fetch ∧ ∃ c, t = s.answered.raise .host 0x03 c) ∨ t.fault = s.fault := by
  cases h with
  | fault i c => exact .inl ⟨c, rfl⟩
  | writeFaults c hp => exact .inr (.inl ⟨rfl, hp, c, rfl⟩)
  | _ => exact .inr (.inr rfl)

/-- Settles O41: the two faults of `Move.fault_cases`; every other move leaves FAULT `none`. -/
theorem faultsArePrecise : Obligations.FaultsArePrecise := by
  intro i s t hf h ht
  rcases (exec_move h).fault_cases with ⟨c, rfl⟩ | ⟨hi, hp, c, rfl⟩ | hkeep
  · exact ⟨c, .inl (State.raise_eq_faultRecorded ..)⟩
  · exact ⟨c, .inr ⟨hi, hp, by rw [State.raise_eq_faultRecorded, State.answered_eq]⟩⟩
  · exact absurd (hkeep.trans hf) ht

/-! ### What every operation keeps -/

/-- No operation changes the parameters (00_scope.md R10). -/
theorem exec_params {i : Instr} {s t : State} (h : exec i s = .next t) : t.params = s.params := by
  cases exec_move h <;> rfl

/-- Settles O56: the parameters are not among what a turn, a fault, a draw or an operation changes. -/
theorem parametersAreFixed : Obligations.ParametersAreFixed := by
  intro s t h
  exact step_keeps (P := fun u => u.params = s.params) h rfl (fun _ _ _ h => h) (fun _ _ h => h)
    (fun _ _ _ _ h => h) (fun _ _ h => h) fun i u v hu hi => (exec_params hi).trans hu

/-- Only RB_WRITE stores bytes, and it keeps the canonical form (log 5). -/
theorem exec_ring_wf {i : Instr} {s t : State} (hs : s.ring.wf = true) (h : exec i s = .next t) :
    t.ring.wf = true := by
  cases exec_move h with
  | writeStores n bytes => exact Memory.wf_writeBytes hs
  | _ => exact hs

/-- Settles O44: `exec_ring_wf`, the rest of a step leaving the ring as it is. -/
theorem stepKeepsTheRingCanonical : Obligations.StepKeepsTheRingCanonical := by
  intro s t hs h
  exact step_keeps (P := fun u => u.ring.wf = true) h hs (fun _ _ _ h => h) (fun _ _ h => h)
    (fun _ _ _ _ h => h) (fun _ _ h => h) fun i u v hu hi => exec_ring_wf hu hi

/-! ### Written-attributes -/

/-- What is written in `s` is written in `t`, register by register and ring byte by ring byte (10_state.md R32). -/
def State.WrittenIn (s t : State) : Prop :=
  (s.widx.written → t.widx.written) ∧ (s.ridx.written → t.ridx.written) ∧ (s.scnt.written → t.scnt.written) ∧
  (s.target.written → t.target.written) ∧ (s.bread.written → t.bread.written) ∧
  (s.aout.written → t.aout.written) ∧ (s.threshValid → t.threshValid) ∧ (s.pos.written → t.pos.written) ∧
  (s.neg.written → t.neg.written) ∧ (s.ind.written → t.ind.written) ∧
  (∀ a, s.ring.read a ≠ none → t.ring.read a ≠ none)

theorem State.WrittenIn.trans {s t u : State} (h : s.WrittenIn t) (h' : t.WrittenIn u) : s.WrittenIn u := by
  obtain ⟨h1, h2, h3, h4, h5, h6, h7, h8, h9, h10, h11⟩ := h
  obtain ⟨k1, k2, k3, k4, k5, k6, k7, k8, k9, k10, k11⟩ := h'
  exact ⟨k1 ∘ h1, k2 ∘ h2, k3 ∘ h3, k4 ∘ h4, k5 ∘ h5, k6 ∘ h6, k7 ∘ h7, k8 ∘ h8, k9 ∘ h9, k10 ∘ h10,
    fun a => k11 a ∘ h11 a⟩

/-- Writing a byte leaves no byte unwritten that was written. -/
theorem Memory.read_write_ne_none {m : Memory} {addr a : Nat} {v : Byte} (h : m.read a ≠ none) :
    (m.write addr v).read a ≠ none := by
  rw [Memory.read_write]
  split
  · exact nofun
  · exact h

theorem Memory.read_writeBytes_ne_none {bytes : List Byte} {m : Memory} {base : Byte} {a : Nat}
    (h : m.read a ≠ none) : (m.writeBytes base bytes).read a ≠ none := by
  induction bytes generalizing m base with
  | nil => exact h
  | cons v vs ih => exact ih (Memory.read_write_ne_none h)

/-- An operation writes a register by `Reg.put`, which sets its written-attribute, and a ring byte by a store. -/
theorem exec_writtenIn {i : Instr} {s t : State} (h : exec i s = .next t) : s.WrittenIn t := by
  cases exec_move h with
  | writeStores n bytes =>
    exact ⟨id, id, id, id, id, id, id, id, id, id, fun a => Memory.read_writeBytes_ne_none⟩
  | _ => simp [State.WrittenIn, openSession, publish, endSession, playSample, startDetect, armBlink,
      State.afterMeasures, State.sensed]

/-- Settles O51: `exec_writtenIn`; the blink's draw writes IND, and the rest of a step no register. -/
theorem writtenStaysWritten : Obligations.WrittenStaysWritten := by
  intro s t h
  have hrefl : s.WrittenIn s := ⟨id, id, id, id, id, id, id, id, id, id, fun _ => id⟩
  have hdraw (u : State) : u.WrittenIn u.drawInd :=
    ⟨id, id, id, id, id, id, id, id, id, fun _ => rfl, fun _ => id⟩
  exact step_keeps (P := s.WrittenIn) h hrefl (fun _ _ _ h => h) (fun _ _ h => h) (fun _ _ _ _ h => h)
    (fun u _ h => h.trans (hdraw u)) fun i u v hu hi => hu.trans (exec_writtenIn hi)

/-! ### Events -/

/-- What an event added by operation `i` in state `s` may be: a reading in the sensor's range (10_state.md R67), a
chunk request of RB_POLL at low water (41_audio_stream.md R150), or any other event. -/
def Event.AddedBy (i : Instr) (s : State) : Event → Prop
  | .adcRead v => v ≤ s.params.sensorMax
  | .storageRead n addr => i = .rbPoll ∧ s.level.toNat ≤ 192 ∧ n = 32 ∧ addr = s.widx.val
  | _ => True

/-- The events of a measurement: readings in range, and the emitter's. -/
theorem mem_measureEvents {s : State} {k : Nat} {e : Event} (h : e ∈ s.measureEvents k) :
    (∃ j, e = .adcRead (s.sampleAt j)) ∨ ∃ b, e = .emit b := by
  simp only [State.measureEvents, State.intervalEvents, State.readEvents, List.mem_flatMap, List.mem_append,
    List.mem_map, List.mem_singleton] at h
  obtain ⟨_, -, (((⟨j, -, rfl⟩ | rfl) | ⟨j, -, rfl⟩) | rfl) | ⟨j, -, rfl⟩⟩ := h
  · exact .inl ⟨_, rfl⟩
  · exact .inr ⟨_, rfl⟩
  · exact .inl ⟨_, rfl⟩
  · exact .inr ⟨_, rfl⟩
  · exact .inl ⟨_, rfl⟩

/-- What measurements append to the history. -/
theorem afterMeasures_events (i : Instr) (s : State) (m : Nat) :
    ∃ new, (s.afterMeasures m).events = new ++ s.events ∧ ∀ e ∈ new, e.AddedBy i s := by
  refine ⟨_, rfl, fun e he => ?_⟩
  rw [List.mem_reverse, List.mem_flatMap] at he
  obtain ⟨k, -, he⟩ := he
  rcases mem_measureEvents he with ⟨j, rfl⟩ | ⟨b, rfl⟩
  · exact s.sampleAt_le j
  · trivial

/-- Every operation only appends events, and those its rule allows. -/
theorem exec_events {i : Instr} {s t : State} (h : exec i s = .next t) :
    ∃ new, t.events = new ++ s.events ∧ ∀ e ∈ new, e.AddedBy i s := by
  have measured (m : Nat) (e : Event) (he : e.AddedBy i s) (evs : List Event)
      (hevs : evs = e :: (s.afterMeasures m).events) : ∃ new, evs = new ++ s.events ∧ ∀ e ∈ new, e.AddedBy i s := by
    obtain ⟨new, hnew, hall⟩ := afterMeasures_events i s m
    exact ⟨e :: new, by rw [hevs, hnew, List.cons_append], List.forall_mem_cons.mpr ⟨he, hall⟩⟩
  cases exec_move h with
  | measures => exact afterMeasures_events _ s 1
  | calibrationFails m => exact afterMeasures_events _ s m
  | calibrates m => exact afterMeasures_events _ s m
  | averages =>
    refine ⟨_, rfl, fun e he => ?_⟩
    rw [List.mem_reverse, State.readEvents, List.mem_map] at he
    obtain ⟨j, -, rfl⟩ := he
    exact s.sampleAt_le _
  | tickHits => exact measured 1 (.ind _) trivial _ rfl
  | tickResets => exact measured 1 (.ind _) trivial _ rfl
  | tickMisses => exact measured 1 (.ind _) trivial _ rfl
  | pollRequests hp hlow => exact ⟨[_], rfl, by simpa [Event.AddedBy] using hlow⟩
  | opens => exact ⟨[_, _, _], rfl, by simp [Event.AddedBy]⟩
  | writeAborts | drainEnds | detects | detectStops | blinkDisarms => exact ⟨[_, _], rfl, by simp [Event.AddedBy]⟩
  | fault | writeFaults | pollEnds | tickPlays | offStops | blinks => exact ⟨[_], rfl, by simp [Event.AddedBy]⟩
  | _ => exact ⟨[], rfl, by simp⟩

/-- Every step only appends events, and a reading among them is in range. -/
theorem step_events {s t : State} (h : step s = .next t) :
    ∃ new, t.events = new ++ s.events ∧ ∀ v, Event.adcRead v ∈ new → v ≤ s.params.sensorMax := by
  obtain ⟨-, turns, draws, u, hp, tp, hu, rfl⟩ := step_next h
  rcases hu with rfl | ⟨-, rfl⟩ | ⟨ag, o, c, rfl⟩ | ⟨i, hi⟩
  · exact ⟨[], rfl, nofun⟩
  · exact ⟨[_], rfl, by simp⟩
  · exact ⟨[_], rfl, by simp⟩
  · obtain ⟨new, hnew, hall⟩ := exec_events hi
    exact ⟨new, hnew, fun v hv => hall _ hv⟩

/-- Settles O52: the history is the events in the order they happened. -/
theorem historyOnlyGrows : Obligations.HistoryOnlyGrows := by
  intro s t h
  obtain ⟨new, hnew, -⟩ := step_events h
  exact ⟨new.reverse, by rw [State.history, hnew, List.reverse_append]; rfl⟩

/-- Settles O55: the readings `step_events` speaks of. -/
theorem readingsAreInRange : Obligations.ReadingsAreInRange := fun _ _ => step_events

/-- Settles O54: the events an operation adds are those of `exec_events`. -/
theorem chunkRequestedOnlyAtLowWater : Obligations.ChunkRequestedOnlyAtLowWater := by
  intro i s t new n addr h hnew hmem
  obtain ⟨added, hadded, hall⟩ := exec_events h
  have heq : new = added := List.append_cancel_right (hnew.symm.trans hadded)
  exact hall _ (heq ▸ hmem)

/-! ### Writers -/

/-- Settles O53: move by move, a register is as before (its clause has a false premise) or the operation is one of its
writers. -/
theorem registersHaveTheirWriters : Obligations.RegistersHaveTheirWriters := by
  intro i s t h
  have hf := exec_fault_none h
  cases exec_move h <;>
    simp [hf, Instr.agent, Instr.opcode, agentOfOpcode, openSession, storeChunk, publish, endSession, playSample,
      startDetect, armBlink, State.afterMeasures, State.sensed]

/-- Settles O50: a move that changes PMODE is a row of 43_control.md R234; an abort is one of a session, where
AUDIO is armed. -/
theorem purposeMovesThroughOff : Obligations.PurposeMovesThroughOff := by
  intro i s t hinv h hne
  have haudio : s.pphase ≠ .idle → s.pmode = .audio := hinv.purpose.mp
  cases exec_move h with
  | opens sb bs hp hm => exact .inl ⟨hm, rfl, sb, bs, rfl⟩
  | writeAborts code hp => exact .inr (.inl ⟨haudio (by simp [hp]), rfl, .inr ⟨rfl, rfl⟩⟩)
  | drainEnds hp => exact .inr (.inl ⟨haudio (by simp [hp]), rfl, .inl ⟨rfl, rfl⟩⟩)
  | detects hp hm => exact .inr (.inr (.inl ⟨hm, rfl, rfl⟩))
  | detectStops hp hm => exact .inr (.inr (.inr (.inl ⟨hm, rfl, rfl⟩)))
  | blinks hp hm => exact .inr (.inr (.inr (.inr (.inl ⟨hm, rfl, rfl⟩))))
  | blinkDisarms hp hm => exact .inr (.inr (.inr (.inr (.inr ⟨hm, rfl, rfl⟩))))
  | _ => exact absurd rfl hne

end Sys2Proof.Machine
end

section
/-! The detector's properties (42_detector.md section 3): what a measurement draws and drives, the range of the
normalized difference, the threshold search as a function with its bound and its result, and the hysteresis. -/

namespace Sys2Proof.Machine

/-! ### What a measurement adds to the history -/

section
variable {p : Event → Bool}

theorem readEvents_filter_pos (hread : ∀ v, p (.adcRead v) = true) (s : State) (k n : Nat) :
    (s.readEvents k n).filter p = s.readEvents k n := by
  simp [State.readEvents, List.filter_map, Function.comp_def, hread]

theorem readEvents_filter_neg (hread : ∀ v, p (.adcRead v) = false) (s : State) (k n : Nat) :
    (s.readEvents k n).filter p = [] := by
  simp [State.readEvents, List.filter_map, Function.comp_def, hread]

theorem readEvents_length (s : State) (k n : Nat) : (s.readEvents k n).length = n := by
  simp [State.readEvents]

/-- A measurement makes `8 * 3 * 16` readings (42_detector.md R195). -/
theorem measureEvents_reads (hread : ∀ v, p (.adcRead v) = true) (hemit : ∀ b, p (.emit b) = false) (s : State)
    (k : Nat) : ((s.measureEvents k).filter p).length = 384 := by
  have hinterval (j : Nat) : ((s.intervalEvents j).filter p).length = 48 := by
    simp [State.intervalEvents, List.filter_append, readEvents_filter_pos hread, hemit, readEvents_length]
  rw [State.measureEvents, List.filter_flatMap, List.length_flatMap]
  simp [hinterval]

/-- A measurement drives the emitter on and off once in each of the 8 intervals (42_detector.md R195). -/
theorem measureEvents_drives (hread : ∀ v, p (.adcRead v) = false) (hemit : ∀ b, p (.emit b) = true) (s : State)
    (k : Nat) : (s.measureEvents k).filter p = (List.replicate 8 [Event.emit true, Event.emit false]).flatten := by
  have hinterval (j : Nat) : (s.intervalEvents j).filter p = [.emit true, .emit false] := by
    simp [State.intervalEvents, List.filter_append, readEvents_filter_neg hread, hemit]
  rw [State.measureEvents, List.filter_flatMap]
  simp only [hinterval]
  rfl

end

theorem afterMeasures_one_history (s : State) : (s.afterMeasures 1).history = s.history ++ s.measureEvents 0 := by
  simp [State.afterMeasures, State.sensed, State.history]

/-- Settles O25: the events of one measurement are `measureEvents`, sorted into readings and drives. -/
theorem measureDrawsAndDrives : Obligations.MeasureDrawsAndDrives := by
  intro s t hf hp hm h
  rw [exec_detMeasure_idle hf hp hm] at h
  obtain rfl := Host.Outcome.next.inj h
  exact ⟨rfl, s.measureEvents 0, afterMeasures_one_history s,
    measureEvents_reads (fun _ => rfl) (fun _ => rfl) s 0, measureEvents_drives (fun _ => rfl) (fun _ => rfl) s 0⟩

/-! ### The range of the normalized difference -/

/-- An average difference within the headroom is at most the scale, and no overflow rule raises it (42_detector.md
R194). -/
theorem State.ndAt_le_scale {s : State} {k : Nat} (hhead : 1 ≤ s.headAt k)
    (hdiff : s.dsumAt k / 16 ≤ s.headAt k) : s.ndAt k ≤ 1000 := by
  have hq : s.dsumAt k / 16 * 1000 / max (s.headAt k) 1 ≤ 1000 := by
    rw [Nat.max_eq_left hhead]
    exact Nat.div_le_of_le_mul (Nat.mul_le_mul_right 1000 hdiff)
  unfold State.ndAt
  split
  · exact (Nat.min_le_left _ _).trans hq
  · exact (Nat.mod_le _ _).trans hq

/-- Settles O26: the low half of the returned word is `ndAt 0`. -/
theorem measuredDifferenceRange : Obligations.MeasuredDifferenceRange := by
  intro s t hf hp hm hhead hdiff h
  rw [exec_detMeasure_idle hf hp hm] at h
  obtain rfl := Host.Outcome.next.inj h
  refine ⟨_, rfl, ?_⟩
  have hle := State.ndAt_le_scale hhead hdiff
  simp only [BitVec.extractLsb'_toNat, BitVec.toNat_ofNat, Nat.shiftRight_zero]
  omega

/-! ### The threshold search -/

section
variable {nd : Nat → Nat} {calMax : Nat}

/-- A search has one result and one length (42_detector.md R188). -/
theorem Search.unique {t n m m' : Nat} {r r' : Option Nat} (h : Search nd calMax t n r m)
    (h' : Search nd calMax t n r' m') : r = r' ∧ m = m' := by
  induction h with
  | bound hb =>
    cases h' with
    | bound => exact ⟨rfl, rfl⟩
    | hit hlt => omega
    | done hlt => omega
  | @hit t n j m result hlt hj hbelow hhit _ ih =>
    cases h' with
    | bound hb => omega
    | @hit _ _ j' _ _ _ hj' hbelow' hhit' hrest =>
      have hjj : j = j' := by
        rcases Nat.lt_trichotomy j j' with hc | hc | hc
        · exact absurd hhit (Nat.not_le.mpr (hbelow' j hc))
        · exact hc
        · exact absurd hhit' (Nat.not_le.mpr (hbelow j' hc))
      subst hjj
      exact ih hrest
    | done _ hall => exact absurd hhit (Nat.not_le.mpr (hall j hj))
  | done hlt hall =>
    cases h' with
    | bound hb => omega
    | @hit _ _ j _ _ _ hj _ hhit => exact absurd hhit (Nat.not_le.mpr (hall j hj))
    | done => exact ⟨rfl, rfl⟩

/-- Each round takes at most 32 measurements and raises the threshold by 5. -/
theorem Search.length_le {t n m : Nat} {r : Option Nat} (h : Search nd calMax t n r m) :
    n ≤ m ∧ m ≤ n + 32 * ((calMax - t + 4) / 5) := by
  induction h with
  | bound => omega
  | hit => omega
  | done => omega

/-- A search that succeeds ends with a round below its last threshold, which is the start plus a multiple of 5. -/
theorem Search.success {t n m t' : Nat} {r : Option Nat} (h : Search nd calMax t n r m) (hr : r = some t') :
    (∃ k, 1 ≤ k ∧ t' = t + 5 * k) ∧ t' < calMax + 5 ∧
      ∃ n', n ≤ n' ∧ m = n' + 32 ∧ ∀ i, i < 32 → nd (n' + i) + 5 < t' := by
  induction h with
  | bound => cases hr
  | hit _ _ _ _ _ ih =>
    obtain ⟨⟨k, hk, ht⟩, hmax, n', hn, hm, hall⟩ := ih hr
    exact ⟨⟨k + 1, by omega, by omega⟩, hmax, n', by omega, hm, hall⟩
  | @done t n hlt hall =>
    cases hr
    exact ⟨⟨1, le_rfl, rfl⟩, by omega, n, le_rfl, rfl, fun i hi => Nat.add_lt_add_right (hall i hi) 5⟩

end

/-- Settles O33: the search DET_CALIBRATE makes is one, and there is only one. -/
theorem searchIsDeterministic : Obligations.SearchIsDeterministic := by
  intro s hf hp hm result m hsearch
  obtain ⟨result', m', hsearch', hexec⟩ := (calibrationSearches s hf).2.2.2 hp hm
  obtain ⟨rfl, rfl⟩ := hsearch.unique hsearch'
  exact hexec

/-- The search DET_CALIBRATE made, from the state it leaves. -/
theorem exec_detCalibrate_search {s t : State} (hf : s.fault = none) (hp : s.pphase = .idle) (hm : s.pmode = .off)
    (h : exec .detCalibrate s = .next t) :
    ∃ result m, Search (fun j => s.ndAt (384 * j)) s.params.calMax (s.ndAt 0) 1 result m ∧
      t = searchWrites (s.afterMeasures m) result := by
  obtain ⟨result, m, hsearch, hwrites⟩ := calibrate_search s
  rw [exec_detCalibrate_idle hf hp hm, hwrites] at h
  exact ⟨result, m, hsearch, (Host.Outcome.next.inj h).symm⟩

/-- What a finished search writes leaves the readings to come as they are. -/
theorem searchWrites_inputs (s : State) (result : Option Nat) :
    (searchWrites s result).adc = s.adc ∧ (searchWrites s result).draws = s.draws := by
  cases result <;> exact ⟨rfl, rfl⟩

/-- Settles O34: the first measurement gives the start, and the search makes the others. -/
theorem calibrationIsBounded : Obligations.CalibrationIsBounded := by
  intro s t hf hp hm h
  obtain ⟨result, m, hsearch, rfl⟩ := exec_detCalibrate_search hf hp hm h
  obtain ⟨hfirst, hbound⟩ := hsearch.length_le
  obtain ⟨hadc, hdraws⟩ := searchWrites_inputs (s.afterMeasures m) result
  exact ⟨m, hfirst, hbound, hadc, hdraws⟩

/-- Settles O35: a search that returns 1 succeeded, and R10 makes its threshold fit 16 bits. -/
theorem calibratedThresholdClears : Obligations.CalibratedThresholdClears := by
  intro s t hf hp hm hwf h hret
  obtain ⟨result, m, hsearch, rfl⟩ := exec_detCalibrate_search hf hp hm h
  obtain ⟨-, -, -, hcal⟩ := hwf
  cases result with
  | none => exact absurd hret (by simp [searchWrites])
  | some t' =>
    obtain ⟨⟨k, hk, ht'⟩, hmax, n, hn, rfl, hall⟩ := hsearch.success rfl
    have hfit : (BitVec.ofNat 16 t').toNat = t' := by
      rw [BitVec.toNat_ofNat]
      omega
    refine ⟨rfl, ⟨k, hk, hfit.trans ht'⟩, n, hn, rfl, rfl, fun i hi => ?_⟩
    show _ < (BitVec.ofNat 16 t').toNat
    rw [hfit]
    exact hall i hi

/-! ### Hysteresis -/

theorem streakUp_of_lt {p : Params} {v : Byte} (h : v.toNat < 255) : streakUp p v = v + 1 := by
  have hne : v ≠ 255 := by
    rintro rfl
    exact absurd h (by decide)
  unfold streakUp
  split
  · rfl
  · exact if_neg hne

/-- A negative tick from NEG 0 only counts the miss (42_detector.md R186). -/
theorem exec_detTick_miss {s : State} (hf : s.fault = none) (hm : s.pmode = .detect) (hv : s.threshValid = true)
    (hp : s.pos.written = true) (hn : s.neg = ⟨0, true⟩) (hnd : s.ndAt 0 < s.thresh.toNat) :
    ∃ t, exec .detTick s = .next t ∧ t.pos = s.pos ∧ t.neg = ⟨1, true⟩ ∧ t.thresh = s.thresh ∧
      t.threshValid = true ∧ t.pmode = .detect ∧ t.fault = none := by
  refine ⟨_, exec_detTick_detect hf hm hv hp (by rw [hn]), ?_⟩
  rw [debounce_negative (s := s.afterMeasures 1) hnd (by simp [State.afterMeasures, State.sensed, hn])]
  simp [State.afterMeasures, State.sensed, hn, hm, hv, hf]

/-- Settles O36: the first tick is `exec_detTick_miss`, the second a debounce step from NEG 1. -/
theorem hysteresisOfTheStreaks : Obligations.HysteresisOfTheStreaks := by
  intro s t u hf hm hv hp hn hlt ht hu hnd
  obtain ⟨t', ht', hpos, hneg, hthresh, hvalid, hmode, hfault⟩ := exec_detTick_miss hf hm hv hp hn hnd
  obtain rfl := Host.Outcome.next.inj (ht.symm.trans ht')
  rw [exec_detTick_detect hfault hmode hvalid (by rw [hpos, hp]) (by rw [hneg])] at hu
  obtain rfl := Host.Outcome.next.inj hu
  rw [← hthresh]
  refine ⟨hpos, hneg, fun hhit => ?_, fun hmiss => ?_⟩
  · rw [debounce_positive (s := t.afterMeasures 1) hhit]
    refine ⟨?_, rfl⟩
    show (⟨streakUp t.params t.pos.val, true⟩ : Reg Byte) = _
    rw [hpos, streakUp_of_lt hlt]
  · have hone : (t.afterMeasures 1).neg.val = 1 := by
      show t.neg.val = 1
      rw [hneg]
    rw [debounce_negative (s := t.afterMeasures 1) hmiss (by rw [hone]; decide), if_pos hone, if_pos hone]
    exact ⟨rfl, rfl⟩

end Sys2Proof.Machine
end

section
/-! The ring as a queue (20_memory.md section 9): what a store, a commit and a tick do to the published and the
uncommitted bytes. -/

namespace Sys2Proof.Machine

/-! ### The level and the ring bytes -/

/-- WIDX is LEVEL places after RIDX (10_state.md R54). -/
theorem State.ridx_add_level (s : State) : s.ridx.val + s.level = s.widx.val := by
  rw [State.level, BitVec.add_comm, BitVec.sub_add_cancel]

/-- An empty ring is one of level 0 (10_state.md R55). -/
theorem State.level_eq_zero_iff (s : State) : s.level.toNat = 0 ↔ s.empty = true := by
  rw [State.empty_iff, State.level]
  bv_omega

/-- The bytes from WIDX on are those LEVEL places and more after RIDX. -/
theorem State.byteFromRead_level_add (s : State) (k : Nat) :
    s.byteFromRead (s.level.toNat + k) = s.ring.read (s.widx.val + BitVec.ofNat 8 k).toNat := by
  rw [State.byteFromRead, BitVec.ofNat_add, ← BitVec.add_assoc, BitVec.ofNat_toNat, BitVec.setWidth_eq,
    State.ridx_add_level]

theorem State.byteFromRead_zero (s : State) : s.byteFromRead 0 = s.ring.read s.ridx.val.toNat := by
  simp [State.byteFromRead]

/-- The published bytes depend on the indices and on what the ring reads. -/
theorem published_congr {s t : State} (hw : t.widx = s.widx) (hr : t.ridx = s.ridx)
    (hring : ∀ a, t.ring.read a = s.ring.read a) : t.published = s.published := by
  simp only [State.published, State.level, hw, hr]
  refine List.map_congr_left fun k _ => ?_
  rw [State.byteFromRead, State.byteFromRead, hr, hring]

theorem published_of_empty {s : State} (h : s.empty = true) : s.published = [] := by
  rw [State.published, s.level_eq_zero_iff.mpr h, List.range_zero, List.map_nil]

/-! ### A store -/

theorem storeChunk_pend (s : State) {n : Nat} (bytes : List Byte) (hn : n ≤ 32) :
    (storeChunk s n bytes).pend.toNat = n := by
  show (BitVec.ofNat 6 n).toNat = n
  rw [BitVec.toNat_ofNat]
  omega

/-- A store behind WIDX leaves the published bytes as they are, where it fits the ring (20_memory.md R99). -/
theorem storeChunk_byteFromRead (s : State) (n : Nat) {bytes : List Byte} {k : Nat} (hk : k < s.level.toNat)
    (hfit : s.level.toNat + bytes.length ≤ 256) : (storeChunk s n bytes).byteFromRead k = s.byteFromRead k := by
  refine Memory.read_writeBytes_of_ne _ _ _ _ fun i hi => ?_
  show (s.ridx.val + BitVec.ofNat 8 k).toNat ≠ (s.widx.val + BitVec.ofNat 8 i).toNat
  rw [← s.ridx_add_level]
  bv_omega

/-- The bytes of the chunk stand right behind the published ones. -/
theorem storeChunk_byteFromRead_new (s : State) (n : Nat) {bytes : List Byte} {i : Nat} (hi : i < bytes.length)
    (hfit : s.level.toNat + bytes.length ≤ 256) :
    (storeChunk s n bytes).byteFromRead (s.level.toNat + i) = some bytes[i] := by
  have hat := (storeChunk s n bytes).byteFromRead_level_add i
  exact hat.trans (Memory.read_writeBytes_at _ _ _ (by omega) i hi)

theorem published_storeChunk (s : State) (n : Nat) {bytes : List Byte}
    (hfit : s.level.toNat + bytes.length ≤ 256) : (storeChunk s n bytes).published = s.published :=
  List.map_congr_left fun _ hk => storeChunk_byteFromRead s n (List.mem_range.mp hk) hfit

theorem uncommitted_storeChunk (s : State) {n : Nat} {bytes : List Byte} (hlen : bytes.length = n) (hn : n ≤ 32) :
    (storeChunk s n bytes).uncommitted = bytes.map some := by
  rw [State.uncommitted, storeChunk_pend s bytes hn]
  refine List.ext_getElem (by simp [hlen]) fun i hi hi' => ?_
  rw [List.getElem_map, List.getElem_map, List.getElem_range]
  exact Memory.read_writeBytes_at _ _ _ (by omega) i _

/-! ### A commit -/

/-- A commit appends the uncommitted bytes to the published ones. -/
theorem published_publish {s : State} (hfit : s.level.toNat + s.pend.toNat ≤ 255) :
    (publish s).published = s.published ++ s.uncommitted := by
  rw [State.published, level_publish hfit, List.range_add, List.map_append, List.map_map]
  exact congrArg _ (List.map_congr_left fun k _ => s.byteFromRead_level_add k)

theorem uncommitted_of_pend {s : State} (h : s.pend = 0) : s.uncommitted = [] := by
  rw [State.uncommitted, h]
  rfl

/-! ### A tick -/

/-- After a tick that plays, the bytes are one place nearer to RIDX. -/
theorem playSample_byteFromRead (s : State) (v : Byte) (k : Nat) :
    (playSample s v).byteFromRead k = s.byteFromRead (k + 1) := by
  show s.ring.read (s.ridx.val + 1 + BitVec.ofNat 8 k).toNat =
    s.ring.read (s.ridx.val + BitVec.ofNat 8 (k + 1)).toNat
  rw [Nat.add_comm k 1, BitVec.ofNat_add, BitVec.add_assoc]
  rfl

/-- A tick that plays takes the first published byte from the queue. -/
theorem published_playSample {s : State} (v : Byte) (he : s.empty = false) :
    s.published = s.byteFromRead 0 :: (playSample s v).published := by
  rw [State.published, ← level_playSample (v := v) he, List.range_succ_eq_map, List.map_cons, List.map_map]
  exact congrArg _ (List.map_congr_left fun k _ => (playSample_byteFromRead s v k).symm)

end Sys2Proof.Machine
end

section
/-! The invariant of the block, kept by every operation (20_memory.md R98 to R101, 43_control.md R234): a session's
registers move only inside a session, where each operation keeps `SessionInv`, and the others only outside one. -/

namespace Sys2Proof.Machine

/-! ### Registers the invariant does not speak of -/

/-- The state with every register, port and input reset that `BlockInv` does not speak of. -/
def State.judged (s : State) : State :=
  { State.reset with
    ring := s.ring, widx := s.widx, ridx := s.ridx, scnt := s.scnt, target := s.target, bread := s.bread
    pend := s.pend, pphase := s.pphase, rbStatus := s.rbStatus, rbErr := s.rbErr, aoutEn := s.aoutEn
    pos := s.pos, neg := s.neg, emit := s.emit, detErr := s.detErr, pmode := s.pmode }

theorem sessionInv_judged (s : State) : SessionInv s.judged ↔ SessionInv s :=
  ⟨fun ⟨hw, hb, hr, hc, hk, hd⟩ => ⟨hw, hb, hr, hc, hk, hd⟩,
    fun ⟨hw, hb, hr, hc, hk, hd⟩ => ⟨hw, hb, hr, hc, hk, hd⟩⟩

theorem blockInv_judged (s : State) : BlockInv s.judged ↔ BlockInv s :=
  ⟨fun h => ⟨h.ringWf, h.purpose, h.output, h.status, h.pendRange, h.pendZero, h.emitter, h.negRange, h.streaks,
      h.rbErr, h.detErr, fun hp => (sessionInv_judged s).mp (h.session hp)⟩,
    fun h => ⟨h.ringWf, h.purpose, h.output, h.status, h.pendRange, h.pendZero, h.emitter, h.negRange, h.streaks,
      h.rbErr, h.detErr, fun hp => (sessionInv_judged s).mpr (h.session hp)⟩⟩

/-- What changes no register the invariant speaks of keeps it. -/
theorem BlockInv.of_judged {s t : State} (h : BlockInv s) (he : t.judged = s.judged) : BlockInv t :=
  (blockInv_judged t).mp (he ▸ (blockInv_judged s).mpr h)

/-! ### Outside a session -/

/-- With no session the invariant is about the detector, the purpose and the values a session left. -/
theorem BlockInv.of_idle {s : State} (hp : s.pphase = .idle) (hring : s.ring.wf = true) (hm : s.pmode ≠ .audio)
    (haout : s.aoutEn = false) (hstatus : s.rbStatus ≠ .active) (hpend : s.pend = 0) (hrb : s.rbErr.toNat ≤ 5)
    (hemit : s.emit = false) (hneg : s.neg.val.toNat ≤ 1)
    (hstreaks : s.pmode = .detect → s.pos.written ∧ s.neg.written) (hdet : s.detErr = 0 ∨ s.detErr = 6) :
    BlockInv s where
  ringWf := hring
  purpose := by simp [hp, hm]
  output := by simp [haout, hm]
  status := by simp [hp, hstatus]
  pendRange := by simp [hpend]
  pendZero := fun _ => hpend
  emitter := hemit
  negRange := hneg
  streaks := hstreaks
  rbErr := hrb
  detErr := hdet
  session := fun h => absurd hp h

/-- An operation outside a session leaves the session's registers as they are and does not arm AUDIO. -/
theorem BlockInv.outside {s t : State} (h : BlockInv s) (hp : s.pphase = .idle)
    (hkeep : t.ring = s.ring ∧ t.pphase = s.pphase ∧ t.aoutEn = s.aoutEn ∧ t.rbStatus = s.rbStatus ∧
      t.pend = s.pend ∧ t.rbErr = s.rbErr)
    (hm : t.pmode ≠ .audio) (hemit : t.emit = false) (hneg : t.neg.val.toNat ≤ 1)
    (hstreaks : t.pmode = .detect → t.pos.written ∧ t.neg.written) (hdet : t.detErr = 0 ∨ t.detErr = 6) :
    BlockInv t := by
  obtain ⟨hring, hphase, haout, hstatus, hpend, hrb⟩ := hkeep
  refine .of_idle (hphase.trans hp) (hring ▸ h.ringWf) hm ?_ ?_ (hpend.trans (h.pendZero (by simp [hp])))
    (hrb ▸ h.rbErr) hemit hneg hstreaks hdet
  · rw [haout, Bool.eq_false_iff]
    exact fun hc => h.purpose.mpr (h.output.mp hc) hp
  · rw [hstatus]
    exact fun hc => h.status.mp hc hp

theorem BlockInv.purpose_ne_audio {s : State} (h : BlockInv s) (hp : s.pphase = .idle) : s.pmode ≠ .audio :=
  fun hm => h.purpose.mpr hm hp

theorem BlockInv.idle_of_detect {s : State} (h : BlockInv s) (hm : s.pmode = .detect) : s.pphase = .idle := by
  by_contra hp
  exact absurd (h.purpose.mp hp) (by simp [hm])

/-! ### Inside a session -/

/-- What opening a session leaves, from any good state (41_audio_stream.md R143). -/
theorem BlockInv.openSession {s : State} (h : BlockInv s) (startBlock byteSize : Word) :
    BlockInv (openSession startBlock byteSize s) where
  ringWf := h.ringWf
  purpose := by simp [openSession_eq]
  output := by simp [openSession_eq]
  status := by simp [openSession_eq]
  pendRange := by simp [openSession_eq]
  pendZero := fun _ => rfl
  emitter := h.emitter
  negRange := h.negRange
  streaks := nofun
  rbErr := h.rbErr
  detErr := h.detErr
  session := fun _ =>
    { written := ⟨rfl, rfl, rfl, rfl, rfl⟩
      bound := by simp [openSession_level]
      requested := by simp [openSession_eq]
      conserved := by rw [openSession_level]; rfl
      known := fun k hk => absurd hk (by rw [openSession_level]; exact Nat.not_lt_zero k)
      drained := nofun }

/-- An operation of a running session keeps the purpose, the outputs and the detector's registers. -/
theorem BlockInv.inSession {s t : State} (h : BlockInv s) (hp : s.pphase ≠ .idle) (hp' : t.pphase ≠ .idle)
    (hkeep : t.pmode = s.pmode ∧ t.aoutEn = s.aoutEn ∧ t.rbStatus = s.rbStatus ∧ t.emit = s.emit ∧ t.neg = s.neg ∧
      t.pos = s.pos ∧ t.rbErr = s.rbErr ∧ t.detErr = s.detErr)
    (hring : t.ring.wf = true) (hpend : t.pend.toNat ≤ 32) (hzero : t.pphase ≠ .commit → t.pend = 0)
    (hsession : SessionInv t) : BlockInv t := by
  obtain ⟨hm, haout, hstatus, hemit, hneg, hpos, hrb, hdet⟩ := hkeep
  exact
    { ringWf := hring
      purpose := by rw [hm]; exact iff_of_true hp' (h.purpose.mp hp)
      output := by rw [haout, hm]; exact h.output
      status := by rw [hstatus]; exact iff_of_true (h.status.mpr hp) hp'
      pendRange := hpend
      pendZero := hzero
      emitter := hemit.trans h.emitter
      negRange := hneg ▸ h.negRange
      streaks := by rw [hm, hpos, hneg]; exact h.streaks
      rbErr := hrb ▸ h.rbErr
      detErr := hdet ▸ h.detErr
      session := fun _ => hsession }

/-- Both exits of a session leave a good state, the aborting one with its code in RB_ERR (41_audio_stream.md R142,
R145). -/
theorem BlockInv.teardown {s : State} (h : BlockInv s) {code : Byte} {result : SessionStatus}
    (hcode : code.toNat ≤ 5) (hr : result ≠ .active) :
    BlockInv { { s with rbErr := code }.teardown result with ret := none } :=
  .of_idle rfl h.ringWf nofun rfl hr rfl hcode h.emitter h.negRange nofun h.detErr

/-- Storing a chunk keeps a session's invariant: the store is behind the published bytes (20_memory.md R99). -/
theorem SessionInv.storeChunk {s : State} (h : SessionInv s) {n : Nat} {bytes : List Byte}
    (hp : s.pphase = .fetch) (hlen : bytes.length = n) (hn : n ≤ 32) : SessionInv (storeChunk s n bytes) where
  written := h.written
  bound := h.bound
  requested := fun _ => h.requested (.inl hp)
  conserved := h.conserved
  known := fun k hk => by
    have hlow := h.requested (.inl hp)
    have hfit : s.level.toNat + bytes.length ≤ 256 := by omega
    rw [storeChunk_pend s bytes hn] at hk
    change k < s.level.toNat + n at hk
    by_cases hlt : k < s.level.toNat
    · rw [storeChunk_byteFromRead s n hlt hfit]
      exact h.known k (by omega)
    · have hnew := storeChunk_byteFromRead_new s n (bytes := bytes) (i := k - s.level.toNat) (by omega) hfit
      rw [Nat.add_sub_cancel' (Nat.le_of_not_lt hlt)] at hnew
      rw [hnew]
      exact nofun
  drained := nofun

theorem setWidth_of_toNat_add {w v u n : Nat} {a : BitVec w} {b : BitVec v} {c : BitVec u}
    (h : a.toNat = b.toNat + c.toNat) : a.setWidth n = b.setWidth n + c.setWidth n := by
  rw [← BitVec.ofNat_toNat, h, BitVec.ofNat_add, BitVec.ofNat_toNat, BitVec.ofNat_toNat]

/-- A commit keeps a session's invariant: what it adds to the level it adds to BREAD (20_memory.md R100). -/
theorem SessionInv.publish {s : State} (h : SessionInv s) (hp : s.pphase = .commit) (hpend : s.pend.toNat ≤ 32) :
    SessionInv (publish s) := by
  have hlow := h.requested (.inr hp)
  have hlevel := level_publish (s := s) (by omega)
  exact
    { written := ⟨rfl, h.written.2.1, h.written.2.2.1, h.written.2.2.2.1, rfl⟩
      bound := by omega
      requested := by simp [Machine.publish]
      conserved := by
        rw [setWidth_of_toNat_add hlevel, ← BitVec.add_assoc]
        exact congrArg (· + s.pend.setWidth 32) h.conserved
      known := fun k hk => h.known k (by rw [hlevel] at hk; exact hk)
      drained := nofun }

/-- A tick that plays keeps a session's invariant: what it takes from the level it adds to SCNT (20_memory.md
R100). -/
theorem SessionInv.playSample {s : State} (h : SessionInv s) (v : Byte) (he : s.empty = false) :
    SessionInv (playSample s v) := by
  have hlevel := level_playSample (v := v) he
  have hbound := h.bound
  exact
    { written := ⟨h.written.1, rfl, rfl, h.written.2.2.2⟩
      bound := by omega
      requested := fun hp => by have := h.requested hp; omega
      conserved := by
        have hone : s.level.toNat = (1 : Byte).toNat + (Machine.playSample s v).level.toNat := by
          rw [← hlevel, Nat.add_comm]
          rfl
        refine Eq.trans ?_ h.conserved
        rw [setWidth_of_toNat_add hone]
        exact BitVec.add_assoc _ _ _
      known := fun k hk => by
        rw [playSample_byteFromRead]
        refine h.known (k + 1) ?_
        change k < _ + s.pend.toNat at hk
        omega
      drained := h.drained }

/-- Every operation keeps the invariant. -/
theorem exec_blockInv {i : Instr} {s t : State} (h : BlockInv s) (hi : exec i s = .next t) : BlockInv t := by
  cases exec_move hi with
  | fault | writeFaults | pollWaits | tellsAlarm | averages | offStops | offDisarms | readsReg | readsMem =>
    exact h.of_judged rfl
  | drainHolds => exact h
  | tickIdles => exact h
  | opens sb bs => exact h.openSession sb bs
  | pollEnds hp ht =>
    have hs := h.session (by simp [hp])
    exact h.inSession (by simp [hp]) nofun ⟨rfl, rfl, rfl, rfl, rfl, rfl, rfl, rfl⟩ h.ringWf h.pendRange
      (fun _ => h.pendZero (by simp [hp])) ⟨hs.written, hs.bound, by simp, hs.conserved, hs.known, fun _ => ht⟩
  | pollRequests hp hlow =>
    have hs := h.session (by simp [hp])
    exact h.inSession (by simp [hp]) nofun ⟨rfl, rfl, rfl, rfl, rfl, rfl, rfl, rfl⟩ h.ringWf h.pendRange
      (fun _ => h.pendZero (by simp [hp])) ⟨hs.written, hs.bound, fun _ => hlow, hs.conserved, hs.known, nofun⟩
  | writeAborts code _ _ hcode =>
    have hanswered : BlockInv s.answered := h.of_judged rfl
    exact hanswered.teardown hcode nofun
  | writeStores n bytes hp _ hn hlen =>
    exact h.inSession (by simp [hp]) nofun ⟨rfl, rfl, rfl, rfl, rfl, rfl, rfl, rfl⟩ (Memory.wf_writeBytes h.ringWf)
      ((storeChunk_pend s bytes hn).trans_le hn) (absurd rfl) ((h.session (by simp [hp])).storeChunk hp hlen hn)
  | commits hp =>
    exact h.inSession (by simp [hp]) nofun ⟨rfl, rfl, rfl, rfl, rfl, rfl, rfl, rfl⟩ h.ringWf (Nat.zero_le _)
      (fun _ => rfl) ((h.session (by simp [hp])).publish hp h.pendRange)
  | drainEnds => exact h.teardown h.rbErr nofun
  | tickPlays v hm he =>
    have hp : s.pphase ≠ .idle := h.purpose.mpr hm
    exact h.inSession hp hp ⟨rfl, rfl, rfl, rfl, rfl, rfl, rfl, rfl⟩ h.ringWf h.pendRange h.pendZero
      ((h.session hp).playSample v he)
  | measures r hp hm =>
    exact h.outside hp ⟨rfl, rfl, rfl, rfl, rfl, rfl⟩ (h.purpose_ne_audio hp) rfl h.negRange h.streaks h.detErr
  | detects hp =>
    exact h.outside hp ⟨rfl, rfl, rfl, rfl, rfl, rfl⟩ nofun h.emitter (Nat.zero_le _) (fun _ => ⟨rfl, rfl⟩)
      h.detErr
  | detectStops hp | blinkDisarms hp =>
    exact h.outside hp ⟨rfl, rfl, rfl, rfl, rfl, rfl⟩ nofun h.emitter h.negRange nofun h.detErr
  | tickHits hm | tickResets hm =>
    have hp := h.idle_of_detect hm
    exact h.outside hp ⟨rfl, rfl, rfl, rfl, rfl, rfl⟩ (h.purpose_ne_audio hp) rfl (Nat.zero_le _)
      (fun _ => ⟨rfl, rfl⟩) h.detErr
  | tickMisses hm hpos hn =>
    have hp := h.idle_of_detect hm
    have hneg := h.negRange
    refine h.outside hp ⟨rfl, rfl, rfl, rfl, rfl, rfl⟩ (h.purpose_ne_audio hp) rfl ?_ (fun _ => ⟨hpos, rfl⟩)
      h.detErr
    show (s.neg.val + 1).toNat ≤ 1
    bv_omega
  | calibrationFails m hp =>
    exact h.outside hp ⟨rfl, rfl, rfl, rfl, rfl, rfl⟩ (h.purpose_ne_audio hp) rfl h.negRange h.streaks (.inr rfl)
  | calibrates m t hp =>
    exact h.outside hp ⟨rfl, rfl, rfl, rfl, rfl, rfl⟩ (h.purpose_ne_audio hp) rfl h.negRange h.streaks h.detErr
  | blinks hp => exact h.outside hp ⟨rfl, rfl, rfl, rfl, rfl, rfl⟩ nofun h.emitter h.negRange nofun h.detErr

/-- Settles O42: `exec_blockInv`; ports, inputs, faults and the blink's draw are not what the invariant is about. -/
theorem stepKeepsTheInvariant : Obligations.StepKeepsTheInvariant := by
  intro s t h hstep
  exact step_keeps hstep h (fun _ _ _ hu => hu.of_judged rfl) (fun _ _ hs => hs.of_judged rfl)
    (fun _ _ _ _ hu => hu.of_judged rfl) (fun _ _ hu => hu.of_judged rfl) fun _ _ _ hu hi => exec_blockInv hu hi

/-- Settles O43: power-on has no session, and every register is 0 beside its clear attribute (log 2). -/
theorem resetMeetsTheInvariant : Obligations.ResetMeetsTheInvariant :=
  .of_idle rfl rfl nofun rfl nofun rfl (Nat.zero_le _) rfl (Nat.zero_le _) nofun (.inl rfl)

end Sys2Proof.Machine
end

section
/-! The remaining operations, forward: a drain that holds, the reads of unwritten registers, TMR_ARM_BLINK, and a
session of an empty clip. -/

namespace Sys2Proof.Machine

/-! ### RB_DRAIN -/

/-- A drain holds while bytes are left (41_audio_stream.md R147). -/
theorem exec_rbDrain_holds {s : State} (hf : s.fault = none) (hp : s.pphase = .drain) (hw : s.widx.written = true)
    (hr : s.ridx.written = true) (he : s.ridx.val ≠ s.widx.val) : exec .rbDrain s = .next s := by
  refine operate_ok hf (check_eq_ok.mpr ⟨hp, check_eq_ok.mpr ⟨State.indicesWritten_iff.mpr ⟨hw, hr⟩, ?_⟩⟩)
  rw [if_pos ((drainHolds_iff s).mpr ⟨hp, hw, hr, he⟩)]

/-- Settles O18: the hold is no change of state, the end is the teardown with DONE. -/
theorem drainWaitsThenTearsDown : Obligations.DrainWaitsThenTearsDown := by
  intro s hf
  refine ⟨rfl, fun hp => operate_records hf (check_of_false _ _ hp), fun hp hw hr =>
    ⟨exec_rbDrain_holds hf hp hw hr, fun he => ?_⟩⟩
  rw [exec_rbDrain_empty hf hp hw hr he, endSession, State.teardown_eq]

/-- Settles O19: the turn is that of a decoded command, and a drain that holds answers the state it is given. -/
theorem heldDrainIsRetried : Obligations.HeldDrainIsRetried := by
  intro s rest more hf hp hw hr he hport ht
  have hd : decodeFor .host s.hostPort = .ok (.rbDrain, rest) := by
    rw [hport]
    exact (decodeOfEncode .rbDrain rest).2
  have hstep := (stepRunsDecodedHostCommand s more hf ht).1 .rbDrain rest hd
  rw [exec_rbDrain_holds (s := { s with turns := more }) hf hp hw hr he] at hstep
  exact hstep.trans (congrArg _ (if_pos ⟨rfl, hp, hw, hr, he⟩))

/-! ### Unwritten registers -/

/-- Settles O22: the UNWRITTEN check fails after the checks before it have passed (60_exceptions.md R257). -/
theorem unwrittenReadsFault : Obligations.UnwrittenReadsFault := by
  intro s hf
  refine ⟨fun hp h => ?_, fun hp hw n bytes ha hn hlen hpos => ?_, fun hp h => ?_, fun hp h => ?_, fun hm h => ?_,
    fun hm hw hr he h => ?_, fun hm hv h => ?_⟩
  · refine operate_records hf ((check_of_true _ _ hp).trans (check_of_false _ _ fun ⟨hi, hb, ht⟩ => h ?_))
    obtain ⟨hw, hr⟩ := State.indicesWritten_iff.mp hi
    exact ⟨hw, hr, hb, ht⟩
  · have hunwritten : ¬ (n = 0 ∨ s.answered.widx.written = true) := by simp [hw, hpos.ne']
    have hreceive : receive s.answered s.answer = .error .unwritten := by
      rw [ha]
      exact check_of_false _ _ hunwritten
    rw [exec_rbWrite_fetch hp, ← State.answered_eq]
    exact operate_records hf ((check_of_true _ _ (ha ▸ answerOk_ok_iff.mpr ⟨hn, hlen⟩)).trans hreceive)
  · refine operate_records hf ((check_of_true _ _ hp).trans (check_of_false _ _ fun ⟨hi, hb⟩ => h ?_))
    obtain ⟨hw, hr⟩ := State.indicesWritten_iff.mp hi
    exact ⟨hw, hr, hb⟩
  · exact operate_records hf ((check_of_true _ _ hp).trans (check_of_false _ _ (mt State.indicesWritten_iff.mp h)))
  · exact operate_records hf ((check_of_true _ _ hm).trans (check_of_false _ _ (mt State.indicesWritten_iff.mp h)))
  · exact operate_records hf ((check_of_true _ _ hm).trans
      ((check_of_true _ _ (State.indicesWritten_iff.mpr ⟨hw, hr⟩)).trans
        ((if_neg (mt State.empty_iff.mp he)).trans (check_of_false _ _ h))))
  · exact operate_records hf ((check_of_true _ _ hm).trans (check_of_false _ _ fun hall => h hall.2))

/-! ### TMR_ARM_BLINK -/

/-- Settles O37: the two checks in their order, then `armBlink`. -/
theorem blinkArms : Obligations.BlinkArms := by
  intro s hf
  refine ⟨rfl, fun hp => ?_, fun hp hm => ?_, fun hp hm => ?_⟩
  · exact operate_records hf (outsideSession_of_active _ hp)
  · exact operate_records hf (outsideSession_of_busy _ hp hm)
  · exact operate_ok hf (outsideSession_eq_ok.mpr ⟨hp, hm, rfl⟩)

/-! ### The empty clip -/

/-- A poll that finds TARGET bytes read ends the requests (41_audio_stream.md R144). -/
theorem pollEffect_of_target_le {s : State} (h : s.target.val ≤ s.bread.val) :
    pollEffect s = { s with
      pphase := .drain, ret := some (s.level.setWidth 32), events := .storageStop :: s.events } :=
  if_pos h

/-- Settles O49: PLAY_START leaves TARGET and BREAD 0, so the poll starts the drain of an empty ring. -/
theorem emptyClipEndsAtOnce : Obligations.EmptyClipEndsAtOnce := by
  intro startBlock s hf hp hm
  have hpoll := exec_rbPoll_refill (s := openSession startBlock 0 s) hf rfl rfl rfl rfl rfl
  rw [pollEffect_of_target_le (BitVec.le_refl (0 : Word))] at hpoll
  have hdrain := exec_rbDrain_empty
    (s := { openSession startBlock 0 s with
      pphase := .drain
      ret := some ((openSession startBlock 0 s).level.setWidth 32)
      events := .storageStop :: (openSession startBlock 0 s).events }) hf rfl rfl rfl rfl
  exact ⟨_, _, _, exec_playStart_idle hf hp hm, hpoll, hdrain, rfl, rfl, rfl, hf, by
    simp [State.history, endSession, openSession_eq]⟩

end Sys2Proof.Machine
end

section
/-! Sessions (20_memory.md section 9, 41_audio_stream.md section 3): in a good state the operations of a session
do not fault, the published bytes are a queue, a drain takes LEVEL ticks, and the samples are the committed bytes
in order. -/

namespace Sys2Proof.Machine

/-! ### No fault in a good state -/

/-- In a session a tick on a ring that is not empty has a sample: the published bytes are known. -/
theorem exec_audioTick_plays {s : State} (h : BlockInv s) (hf : s.fault = none) (hm : s.pmode = .audio)
    (he : s.ridx.val ≠ s.widx.val) : ∃ v, exec .audioTick s = .next (playSample s v) := by
  have hs := h.session (h.purpose.mpr hm)
  obtain ⟨hw, hr, hscnt, htarget, -⟩ := hs.written
  have hpos : 0 < s.level.toNat :=
    Nat.pos_of_ne_zero (mt s.level_eq_zero_iff.mp (mt State.empty_iff.mp he))
  obtain ⟨b, hb⟩ := Option.ne_none_iff_exists'.mp (hs.known 0 (by omega))
  rw [State.byteFromRead_zero] at hb
  rw [exec_audioTick_nonempty hm hw hr he hscnt htarget]
  by_cases hlt : s.scnt.val < s.target.val
  · exact ⟨b, operate_map_ok hf (nextSample_eq_ok.mpr (.inl ⟨hlt, hb⟩))⟩
  · exact ⟨_, operate_map_ok hf (nextSample_eq_ok.mpr (.inr ⟨hlt, rfl⟩))⟩

theorem pollEffect_fault (s : State) : (pollEffect s).fault = s.fault := by
  rcases pollEffect_cases s with ⟨-, h⟩ | ⟨-, -, h⟩ | ⟨-, -, h⟩ <;> rw [h]

/-- A well-formed answer is received, whatever it is. -/
theorem exec_rbWrite_good {s : State} (hf : s.fault = none) (hp : s.pphase = .fetch) (hw : s.widx.written = true)
    (ha : answerOk s.answer = true) : ∃ t, exec .rbWrite s = .next t ∧ t.fault = none := by
  cases hr : s.answer with
  | err code =>
    rw [hr, answerOk_err_iff] at ha
    exact ⟨_, exec_rbWrite_err hf hp hr ha.1 ha.2, hf⟩
  | ok n bytes =>
    rw [hr, answerOk_ok_iff] at ha
    exact ⟨_, exec_rbWrite_ok hf hp hr ha.1 ha.2 (.inl hw), hf⟩

/-- Settles O45: the registers are written, the level leaves room for a chunk, and the published bytes are known. -/
theorem sessionNeverFaults : Obligations.SessionNeverFaults := by
  intro s h hf
  have session {p : Phase} (hp : s.pphase = p) (hne : p ≠ .idle) : SessionInv s := h.session (hp ▸ hne)
  refine ⟨fun hp => ?_, fun hp ha => ?_, fun hp => ?_, fun hp => ?_, fun hm => ?_⟩
  · obtain ⟨hw, hr, -, ht, hb⟩ := (session hp nofun).written
    exact ⟨_, exec_rbPoll_refill hf hp hw hr hb ht, (pollEffect_fault s).trans hf⟩
  · exact exec_rbWrite_good hf hp (session hp nofun).written.1 ha
  · have hs := session hp nofun
    obtain ⟨hw, hr, -, -, hb⟩ := hs.written
    have hlow := hs.requested (.inr hp)
    have hpend := h.pendRange
    have hlevel := level_publish (s := s) (by omega)
    rw [exec_rbCommit_commit hp hw hr hb]
    exact ⟨_, operate_ok hf (check_of_true _ _ (by omega)), hf, hlevel, by omega⟩
  · obtain ⟨hw, hr, -⟩ := (session hp nofun).written
    by_cases he : s.ridx.val = s.widx.val
    · exact ⟨_, exec_rbDrain_empty hf hp hw hr he, hf⟩
    · exact ⟨_, exec_rbDrain_holds hf hp hw hr he, hf⟩
  · obtain ⟨hw, hr, -⟩ := (h.session (h.purpose.mpr hm)).written
    by_cases he : s.ridx.val = s.widx.val
    · exact ⟨_, exec_audioTick_empty hf hm hw hr he, hf⟩
    · obtain ⟨v, hv⟩ := exec_audioTick_plays h hf hm he
      exact ⟨_, hv, hf⟩

/-! ### The ring as a queue -/

/-- The byte a tick takes from the queue, and the sample it presents (41_audio_stream.md R148). -/
theorem tick_takes_first {s : State} {v : Byte} (h : BlockInv s) (hm : s.pmode = .audio) (he : s.empty = false)
    (hv : nextSample s = .ok v) :
    ∃ b, s.published = some b :: (playSample s v).published ∧ (s.scnt.val < s.target.val → v = b) ∧
      (¬ s.scnt.val < s.target.val → v = s.params.midscale) := by
  have hpos : 0 < s.level.toNat := Nat.pos_of_ne_zero fun hc => by
    rw [s.level_eq_zero_iff.mp hc] at he
    cases he
  obtain ⟨b, hb⟩ := Option.ne_none_iff_exists'.mp ((h.session (h.purpose.mpr hm)).known 0 (by omega))
  refine ⟨b, by rw [← hb]; exact published_playSample v he, fun hlt => ?_, fun hge => ?_⟩
  · rcases nextSample_eq_ok.mp hv with ⟨-, hread⟩ | ⟨hge, -⟩
    · rw [State.byteFromRead_zero, hread] at hb
      exact Option.some.inj hb
    · exact absurd hlt hge
  · rcases nextSample_eq_ok.mp hv with ⟨hlt, -⟩ | ⟨-, hmid⟩
    · exact absurd hlt hge
    · exact hmid

/-- A chunk fits behind the published bytes, where one was requested (20_memory.md R98). -/
theorem BlockInv.chunk_fits {s : State} (h : BlockInv s) (hp : s.pphase = .fetch) {bytes : List Byte}
    (hlen : bytes.length ≤ 32) : s.level.toNat + bytes.length ≤ 256 := by
  have hlow := (h.session (by simp [hp])).requested (.inl hp)
  omega

/-- Settles O46: each clause is the move its operation makes without a fault. -/
theorem ringIsAQueue : Obligations.RingIsAQueue := by
  intro s t hinv hf
  refine ⟨fun sb bs h ht => ?_, fun n bytes ha h ht => ?_, fun h ht => ?_, fun h ht => ?_,
    fun i hstart hwrite hcommit htick h => ?_⟩
  · cases exec_move h with
    | fault => cases ht
    | opens => exact ⟨published_of_empty (State.empty_iff.mpr rfl), uncommitted_of_pend rfl⟩
  · cases exec_move h with
    | fault | writeFaults => cases ht
    | writeAborts code _ herr => exact absurd (ha.symm.trans herr) nofun
    | writeStores n' bytes' hp hok hn hlen =>
      obtain ⟨rfl, rfl⟩ := StorageAnswer.ok.inj (ha.symm.trans hok)
      exact ⟨published_storeChunk s n (hinv.chunk_fits hp (hlen.trans_le hn)), uncommitted_storeChunk s hlen hn⟩
  · cases exec_move h with
    | fault => cases ht
    | commits _ hfits => exact ⟨published_publish hfits, uncommitted_of_pend rfl⟩
  · cases exec_move h with
    | fault => cases ht
    | tickIdles _ he => rw [if_pos (State.empty_iff.mp he)]
    | tickPlays v hm he hv =>
      rw [if_neg (State.empty_eq_false_iff.mp he)]
      obtain ⟨b, hpub, hsample, -⟩ := tick_takes_first hinv hm he hv
      exact ⟨b, hpub, fun hlt => congrArg Reg.put (hsample hlt)⟩
  · cases exec_move h with
    | opens sb bs => exact absurd rfl (hstart sb bs)
    | writeFaults | writeAborts | writeStores => exact absurd rfl hwrite
    | commits => exact absurd rfl hcommit
    | tickIdles | tickPlays => exact absurd rfl htick
    | _ => exact published_congr rfl rfl fun _ => rfl

/-! ### The drain -/

/-- Ticks in DRAIN each take one byte from the level. -/
theorem ticks_in_drain {s : State} (h : BlockInv s) (hf : s.fault = none) (hp : s.pphase = .drain) {k : Nat}
    (hk : k ≤ s.level.toNat) :
    ∃ t, repeatExec .audioTick k s = .next t ∧ BlockInv t ∧ t.fault = none ∧ t.pphase = .drain ∧
      t.level.toNat + k = s.level.toNat := by
  induction k generalizing s with
  | zero => exact ⟨s, rfl, h, hf, hp, rfl⟩
  | succ k ih =>
    have he : s.empty = false := State.empty_of_level_pos (by omega)
    obtain ⟨v, hv⟩ := exec_audioTick_plays h hf (h.purpose.mp (by simp [hp])) (State.empty_eq_false_iff.mp he)
    have hlevel := level_playSample (v := v) he
    obtain ⟨t, ht, hgood, hfault, hphase, hleft⟩ := ih (s := playSample s v) (exec_blockInv h hv) hf hp (by omega)
    refine ⟨t, ?_, hgood, hfault, hphase, by omega⟩
    rw [repeatExec, hv]
    exact ht

/-- Settles O48: after `k` ticks LEVEL less `k` bytes are left, and RB_DRAIN tests whether that is 0. -/
theorem drainTakesLevelTicks : Obligations.DrainTakesLevelTicks := by
  intro s h hf hp
  refine ⟨fun k hk => ?_, ?_⟩
  · obtain ⟨t, ht, hgood, hfault, hphase, hleft⟩ := ticks_in_drain h hf hp hk.le
    have he := State.empty_eq_false_iff.mp (State.empty_of_level_pos (s := t) (by omega))
    obtain ⟨hw, hr, -⟩ := (hgood.session (by simp [hphase])).written
    exact ⟨t, ht, he, exec_rbDrain_holds hfault hphase hw hr he⟩
  · obtain ⟨t, ht, hgood, hfault, hphase, hleft⟩ := ticks_in_drain h hf hp le_rfl
    have he := State.empty_iff.mp (t.level_eq_zero_iff.mp (by omega))
    obtain ⟨hw, hr, -⟩ := (hgood.session (by simp [hphase])).written
    exact ⟨t, _, ht, he, exec_rbDrain_empty hfault hphase hw hr he, rfl, rfl, hfault⟩

/-! ### A session as it goes -/

/-- What holds as a session goes: the block is good and the session runs, SCNT counts the samples, the ring holds
what is committed and not played, and each sample is the committed byte of its number, or silence from TARGET on. -/
structure Played (target : Word) (s : State) (committed played : List Byte) : Prop where
  good : BlockInv s
  noFault : s.fault = none
  running : s.pphase ≠ .idle
  size : s.target.val = target
  count : s.scnt.val = BitVec.ofNat 32 played.length
  behind : played.length ≤ committed.length
  queue : s.published = (committed.drop played.length).map some
  samples : ∀ (k : Nat) (v : Byte), played[k]? = some v →
    if k % 2 ^ 32 < target.toNat then committed[k]? = some v else v = s.params.midscale

section
variable {target : Word} {s t : State} {committed played : List Byte}

/-- What leaves the session's counters and the published bytes as they are changes nothing of what has been
played. -/
theorem Played.keep (h : Played target s committed played) (hgood : BlockInv t) (hf : t.fault = none)
    (hp : t.pphase ≠ .idle) (htarget : t.target = s.target) (hscnt : t.scnt = s.scnt)
    (hparams : t.params = s.params) (hpub : t.published = s.published) : Played target t committed played where
  good := hgood
  noFault := hf
  running := hp
  size := htarget ▸ h.size
  count := hscnt ▸ h.count
  behind := h.behind
  queue := hpub.trans h.queue
  samples := hparams ▸ h.samples

/-- PLAY_START begins with nothing committed and nothing played. -/
theorem played_start {startBlock : Word} (h : BlockInv s) (hx : exec (.playStart startBlock target) s = .next t)
    (hf : t.fault = none) : Played target t [] [] := by
  have hgood := exec_blockInv h hx
  cases exec_move hx with
  | fault => cases hf
  | opens =>
    exact ⟨hgood, hf, nofun, rfl, rfl, le_rfl, published_of_empty (State.empty_iff.mpr rfl),
      fun k v hk => by simp at hk⟩

/-- A commit appends its chunk to what is committed and to what the ring holds. -/
theorem Played.commit {new : List Byte} (h : Played target s committed played)
    (hnew : s.uncommitted = new.map some) (hx : exec .rbCommit s = .next t) (hf : t.fault = none) :
    Played target t (committed ++ new) played := by
  have hgood := exec_blockInv h.good hx
  cases exec_move hx with
  | fault => cases hf
  | commits _ hfits =>
    refine ⟨hgood, hf, nofun, h.size, h.count, ?_, ?_, fun k v hk => ?_⟩
    · rw [List.length_append]
      exact Nat.le_add_right_of_le h.behind
    · rw [published_publish hfits, h.queue, hnew, List.drop_append_of_le_length h.behind, List.map_append]
    · have hlt : k < committed.length := (List.getElem?_eq_some_iff.mp hk).1.trans_le h.behind
      rw [List.getElem?_append_left hlt]
      exact h.samples k v hk

/-- A tick that plays presents the next committed byte, or silence from TARGET on. -/
theorem Played.play (h : Played target s committed played) (hne : s.ridx.val ≠ s.widx.val)
    (hx : exec .audioTick s = .next t) (hf : t.fault = none) :
    Played target t committed (played ++ [t.aout.val]) := by
  have hgood := exec_blockInv h.good hx
  cases exec_move hx with
  | fault => cases hf
  | tickIdles _ he => exact absurd (State.empty_iff.mp he) hne
  | tickPlays v hm he hv =>
    obtain ⟨b, hpub, hbyte, hsilence⟩ := tick_takes_first h.good hm he hv
    obtain ⟨b', rest, hdrop, hb', hrest⟩ := List.map_eq_cons_iff.mp (h.queue.symm.trans hpub)
    obtain rfl := Option.some.inj hb'
    have hlt : played.length < committed.length := by
      by_contra hge
      rw [List.drop_of_length_le (Nat.le_of_not_lt hge)] at hdrop
      cases hdrop
    rw [List.drop_eq_getElem_cons hlt] at hdrop
    obtain ⟨hfirst, hrest'⟩ := List.cons.inj hdrop
    have hcount : s.scnt.val < s.target.val ↔ played.length % 2 ^ 32 < target.toNat := by
      rw [h.count, h.size, BitVec.lt_def, BitVec.toNat_ofNat]
    refine ⟨hgood, hf, h.running, h.size, ?_, ?_, ?_, fun k w hk => ?_⟩
    · rw [List.length_append, BitVec.ofNat_add, ← h.count]
      rfl
    · rw [List.length_append]
      exact hlt
    · rw [List.length_append, List.length_singleton, hrest', hrest]
    · rcases Nat.lt_or_ge k played.length with hk' | hk'
      · rw [List.getElem?_append_left hk'] at hk
        exact h.samples k w hk
      · rw [List.getElem?_append_right hk', List.getElem?_singleton] at hk
        split at hk
        · next hzero =>
          obtain rfl : k = played.length := by omega
          obtain rfl := Option.some.inj hk
          split
          · next hbefore =>
            rw [List.getElem?_eq_getElem hlt, hfirst]
            exact congrArg some (hbyte (hcount.mpr hbefore)).symm
          · next hafter => exact hsilence (mt hcount.mp hafter)
        · cases hk

/-- Any other operation that leaves the session running changes nothing of what has been played. -/
theorem Played.other {i : Instr} (h : Played target s committed played) (hcommit : i ≠ .rbCommit)
    (htick : i = .audioTick → s.ridx.val = s.widx.val) (hx : exec i s = .next t) (hf : t.fault = none)
    (hrun : t.pphase ≠ .idle) : Played target t committed played := by
  have hgood := exec_blockInv h.good hx
  have hidle := h.running
  cases exec_move hx with
  | fault | writeFaults => cases hf
  | pollEnds | pollRequests | pollWaits | drainHolds | tickIdles | readsReg | readsMem =>
    exact h.keep hgood hf hrun rfl rfl rfl (published_congr rfl rfl fun _ => rfl)
  | writeStores n bytes hfetch _ hn hlen =>
    exact h.keep hgood hf hrun rfl rfl rfl (published_storeChunk s n (h.good.chunk_fits hfetch (hlen.trans_le hn)))
  | writeAborts | drainEnds => exact absurd rfl hrun
  | commits => exact absurd rfl hcommit
  | tickPlays _ _ he => exact absurd (htick rfl) (State.empty_eq_false_iff.mp he)
  | tickHits hm | tickResets hm | tickMisses hm => exact absurd (h.good.idle_of_detect hm) hidle
  | opens _ _ hp | measures _ hp | averages _ hp | detects hp | detectStops hp | offStops hp | tellsAlarm _ hp
  | calibrationFails _ hp | calibrates _ _ hp | blinks hp | blinkDisarms hp | offDisarms hp => exact absurd hp hidle

/-- A session that ends DONE has played all that was committed. -/
theorem Played.done (h : Played target s committed played) (hx : exec .rbDrain s = .next t)
    (hdone : t.rbStatus = .done) : played.length = committed.length := by
  have hactive : s.rbStatus = .active := h.good.status.mpr h.running
  cases exec_move hx with
  | fault => exact absurd (hactive.symm.trans hdone) nofun
  | drainHolds => exact absurd (hactive.symm.trans hdone) nofun
  | drainEnds _ he =>
    have hempty := h.queue.symm.trans (published_of_empty he)
    exact h.behind.antisymm (List.drop_eq_nil_iff.mp (List.map_eq_nil_iff.mp hempty))

/-- `Played` holds all through a session. -/
theorem Session.toPlayed (h : Session target s committed played) : Played target s committed played := by
  induction h with
  | start hinv hx hf => exact played_start hinv hx hf
  | commit _ hnew hx hf ih => exact ih.commit hnew hx hf
  | play _ hne hx hf ih => exact ih.play hne hx hf
  | other _ hcommit htick hx hf hp ih => exact ih.other hcommit htick hx hf hp

end

/-- Settles O47: the clauses of `Played`, kept by every operation of the session. -/
theorem sessionPlaysTheCommittedBytes : Obligations.SessionPlaysTheCommittedBytes := by
  intro target s committed played h
  have hplayed := h.toPlayed
  exact ⟨hplayed.behind, hplayed.queue, hplayed.samples, fun t hx hdone => hplayed.done hx hdone⟩

end Sys2Proof.Machine
end

section
/-! The end of a run and the runs that do not end (70_reset_and_hazards.md R322). -/

namespace Sys2Proof.Machine

/-- A run that is over stays as it is, however many steps are made. -/
theorem repeatStep_runOver {s : State} (hf : s.fault = none) (hover : s.runOver = true) (n : Nat) :
    repeatStep n s = .next s := by
  induction n with
  | zero => rfl
  | succ n ih =>
    rw [repeatStep, step_runOver hf hover]
    exact ih

/-- The block detects, with a threshold, and nothing but its own ticks is to come. -/
structure State.Detecting (s : State) : Prop where
  noFault : s.fault = none
  noHost : commandPresent s.hostPort = false
  noTimer : commandPresent s.timerPort = false
  noTurn : s.turns = []
  good : BlockInv s
  armed : s.pmode = .detect
  calibrated : s.threshValid = true

theorem debounce_keeps (s : State) (nd : Nat) :
    (debounce s nd).fault = s.fault ∧ (debounce s nd).pmode = s.pmode ∧
      (debounce s nd).threshValid = s.threshValid := by
  rcases debounce_cases s nd with ⟨-, h⟩ | ⟨-, -, h⟩ | ⟨-, -, h⟩ <;> rw [h] <;> exact ⟨rfl, rfl, rfl⟩

/-- While the block detects, a step is a DET_TICK, and the block goes on detecting. -/
theorem State.Detecting.tick {s : State} (h : s.Detecting) :
    ∃ t, step s = .next t ∧ exec .detTick s = .next t ∧ t.Detecting := by
  obtain ⟨hpos, hneg⟩ := h.good.streaks h.armed
  have hexec := exec_detTick_detect h.noFault h.armed h.calibrated hpos hneg
  have hstep := ((stepChoosesTheReadyAgent s h.noFault h.noTurn h.noTimer).1 h.noHost).2.1 h.armed
  obtain ⟨hf, hm, hv⟩ := debounce_keeps (s.afterMeasures 1) (s.ndAt 0)
  obtain ⟨hhost, htimer, hturns⟩ := exec_ports hexec
  exact ⟨_, hstep.trans hexec, hexec,
    ⟨hf.trans h.noFault, by rw [hhost, h.noHost], by rw [htimer, h.noTimer], hturns.trans h.noTurn,
      exec_blockInv h.good hexec, hm.trans h.armed, hv.trans h.calibrated⟩⟩

theorem State.Detecting.ticks {s : State} (h : s.Detecting) (n : Nat) :
    ∃ t, repeatStep n s = .next t ∧ repeatExec .detTick n s = .next t ∧ t.Detecting := by
  induction n generalizing s with
  | zero => exact ⟨s, rfl, rfl, h⟩
  | succ n ih =>
    obtain ⟨u, hstep, hexec, hu⟩ := h.tick
    rw [repeatStep, hstep, repeatExec, hexec]
    exact ih hu

/-- Settles O58: an ended run is `runOver`; a detection is `Detecting` after any number of steps. -/
theorem runEnds : Obligations.RunEnds := by
  intro s n hf hhost htimer
  refine ⟨fun hp hm => ?_, fun hinv hm hv ht => ?_⟩
  · have hover : s.runOver = true := (State.runOver_iff s).mpr ⟨hhost, htimer, hp, hm⟩
    exact ⟨hover, repeatStep_runOver hf hover n⟩
  · obtain ⟨t, hstep, hexec, hd⟩ := State.Detecting.ticks ⟨hf, hhost, htimer, ht, hinv, hm, hv⟩ n
    exact ⟨t, hstep, hexec, hd.noFault, hd.armed, State.runOver_of_armed (.inr hd.armed)⟩

end Sys2Proof.Machine
end
